-- ==== Sys2Proof/Word.lean ====
section
/-! DEFINITION. Word.lean: the widths of the hardware's values (00_scope.md R5 to R7).
The spec's `u(v)` is `v.toNat`, its `s(v)` is `v.toInt`, its `trunc_N(n)` is `BitVec.ofNat N n` for a natural and
`BitVec.ofInt N n` for an integer, and `v[hi:lo]` is `v.extractLsb' lo (hi - lo + 1)`. -/

namespace Sys2Proof

/-- One memory cell's content (20_memory.md R50). -/
abbrev Byte := BitVec 8

/-- A halfword as one access moves it (20_memory.md R56). -/
abbrev Half := BitVec 16

/-- XLEN = ILEN = ALEN = 32: a register value, an instruction, an address (00_scope.md R5). -/
abbrev Word := BitVec 32

/-- A register index: always a 5-bit field, so never out of range (10_state.md R20, 60_exceptions.md R262). -/
abbrev RegIdx := BitVec 5

end Sys2Proof
end

