-- ==== Sys2Proof/Config.lean ====
section
/-! DEFINITION. Config.lean: the parameters marked "configuration" in 00_scope.md R5, each a point the source leaves
open, with every instance the spec names. The spec's default instance is `Machine.launchConfig` (Machine/Launch.lean). -/

namespace Sys2Proof

/-- BYTE_ORDER (20_memory.md R53, D1). -/
inductive ByteOrder where
  | little
  | big
deriving DecidableEq, Repr

/-- HALF_ALIGN: a halfword access at an odd address is fatal, or is performed (20_memory.md R59, D3). -/
inductive HalfAlign where
  | fatal
  | permit
deriving DecidableEq, Repr

/-- DIV_OVERFLOW: `div` of 0x80000000 by 0xFFFFFFFF is fatal, or wraps (42_muldiv_hilo.md R152, D12). -/
inductive DivOverflow where
  | fatal
  | wrap
deriving DecidableEq, Repr

/-- JALR_RD: a `jalr` whose rd is not 31 links to x[31] all the same, or is given no meaning
(46_branch_jump.md R207, D6). -/
inductive JalrRd where
  | link31
  | refuse
deriving DecidableEq, Repr

/-- The configuration parameters of 00_scope.md R5. They do not change during a run. -/
structure Config where
  /-- BYTE_ORDER, of data accesses and of fetch alike. -/
  byteOrder   : ByteOrder
  /-- MEM_DEFAULT, the byte a never-written address reads as (20_memory.md R52, D2). -/
  memDefault  : Byte
  /-- HALF_ALIGN. -/
  halfAlign   : HalfAlign
  /-- DIV_OVERFLOW. -/
  divOverflow : DivOverflow
  /-- JALR_RD. -/
  jalrRd      : JalrRd
  /-- TRAP_OPCODE, the primary opcode of `trap` (30_encoding.md R91, D10). -/
  trapOpcode  : BitVec 6
deriving DecidableEq, Repr

/-- TRACE, a launch parameter of 00_scope.md R5: whether each completed step emits a trace line (40_pipeline.md R118). It
is an argument of the runner (Machine/Runner.lean), as MAX_INSTRUCTIONS is. -/
inductive Tracing where
  | off
  | on
deriving DecidableEq, Repr

/-- The numbers a trace line shows: the pc, the raw word, a register's value, an immediate or target. -/
inductive TracePart where
  | pc
  | raw
  | register
  | value
deriving DecidableEq, Repr

/-! TRACE_FORMAT is OPEN (40_pipeline.md R118, D23): exactly what R118 lists as not fixed is uninterpreted (log 12).
Nothing in the hardware reads the trace line. -/

/-- Letter case: the digits 10 to 15 of this number are upper-case letters. -/
opaque Config.traceUpper : TracePart → Bool

/-- The digit count of a register value, immediate or target; one that the value does not fit in is exceeded. -/
opaque Config.traceWidth : TracePart → Word → Nat

/-- The text before part `k` of a line of this mnemonic, and after its last part: the separators, a `0x` of pc or raw
word, and what surrounds a load or store operand. -/
opaque Config.traceSeparator : String → Nat → String

/-- The place in the text of operand `k` (in assembler order) of this mnemonic: a lower rank stands further left. -/
opaque Config.traceRank : String → Nat → Nat

end Sys2Proof
end

