-- ==== Sys2Proof/Machine/Bytes.lean ====
section
/-! DEFINITION. Machine/Bytes.lean: byte order, decided once (20_memory.md R53 to R55). `joinHalf`, `joinWord` make the
value of an access from the bytes B[0], B[1], ... at ascending addresses; `halfByte`, `wordByte` give the byte a store
puts at address `addr + i`. -/

namespace Sys2Proof.Machine

/-- The 16-bit value of `MemRead(addr, 2)` from its bytes (20_memory.md R54). -/
def joinHalf (o : ByteOrder) (b0 b1 : Byte) : Half :=
  match o with
  | .little => b1 ++ b0
  | .big    => b0 ++ b1

/-- The 32-bit value of `MemRead(addr, 4)` from its bytes (20_memory.md R54). -/
def joinWord (o : ByteOrder) (b0 b1 b2 b3 : Byte) : Word :=
  match o with
  | .little => b3 ++ b2 ++ b1 ++ b0
  | .big    => b0 ++ b1 ++ b2 ++ b3

/-- Byte `i` (0 or 1) of a halfword store (20_memory.md R55). -/
def halfByte (o : ByteOrder) (v : Half) (i : Nat) : Byte :=
  match o with
  | .little => v.extractLsb' (8 * i) 8
  | .big    => v.extractLsb' (8 * (1 - i)) 8

/-- Byte `i` (0 to 3) of a word store (20_memory.md R55). -/
def wordByte (o : ByteOrder) (v : Word) (i : Nat) : Byte :=
  match o with
  | .little => v.extractLsb' (8 * i) 8
  | .big    => v.extractLsb' (8 * (3 - i)) 8

/-- The four bytes of a word at ascending addresses (20_memory.md R70). -/
def wordBytes (o : ByteOrder) (v : Word) : List Byte :=
  [wordByte o v 0, wordByte o v 1, wordByte o v 2, wordByte o v 3]

end Sys2Proof.Machine
end

