-- ==== Sys2Proof/Machine/Launch.lean ====
section
/-! DEFINITION. Machine/Launch.lean: the spec's default instance of the configuration parameters, and the entry address
the model's own reset state stands at. -/

namespace Sys2Proof.Machine

/-- The defaults of 00_scope.md R5: BYTE_ORDER little (D1), MEM_DEFAULT 0x00 (D2), HALF_ALIGN fatal (D3),
DIV_OVERFLOW fatal (recommended, D12), JALR_RD link31 (D6), TRAP_OPCODE 0x1A (D10). Log 1 to 6. -/
def launchConfig : Config where
  byteOrder   := .little
  memDefault  := 0x00#8
  halfAlign   := .fatal
  divOverflow := .fatal
  jalrRd      := .link31
  trapOpcode  := 0x1A#6

/-- The entry address of `State.reset`. DESIGN CHOICE, unsafe (log 8): ENTRY is a launch parameter and "nothing may be
assumed of it" (10_state.md R33, D19). No statement rests on this value: they use `State.resetAt`. -/
def launchEntry : Word := 0x00000000#32

end Sys2Proof.Machine
end

