-- ==== Sys2Proof/Machine/Memory.lean ====
section
/-! DEFINITION. Machine/Memory.lean: the functional memory (20_memory.md R50 to R52) as a list of (address, byte) pairs
in one canonical form. An address the list does not hold reads as MEM_DEFAULT, here the argument `d`. -/

namespace Sys2Proof.Machine

/-- The sparse memory: every one of the 2^32 addresses can be read and written (20_memory.md R51). -/
abbrev Memory := List Host.Cell

/-- The byte at address `a`; a never-written address reads as the default `d` (20_memory.md R52). -/
def Memory.get (d : Byte) : Memory → Nat → Byte
  | [], _ => d
  | (k, v) :: m, a => if a = k then v else Memory.get d m a

/-- Unlist address `a`: it then reads as the default. -/
def Memory.eraseAt (m : Memory) (a : Nat) : Memory := m.filter (fun cell => decide (cell.1 ≠ a))

/-- List `b` at address `a`, before the first higher address. -/
def Memory.insertAt : Memory → Nat → Byte → Memory
  | [], a, b => [(a, b)]
  | (k, v) :: m, a, b => if a < k then (a, b) :: (k, v) :: m else (k, v) :: Memory.insertAt m a b

/-- Set the byte at address `a` to `b`, keeping the canonical form: writing the default unlists the address. -/
def Memory.set (d : Byte) (m : Memory) (a : Nat) (b : Byte) : Memory :=
  if b = d then Memory.eraseAt m a else Memory.insertAt (Memory.eraseAt m a) a b

/-- Addresses rise strictly from `lo` on, lie below 2^32, and no byte listed equals the default `d`. -/
def Memory.wfFrom (d : Byte) (lo : Nat) : Memory → Bool
  | [] => true
  | (k, v) :: m => decide (lo ≤ k) && decide (k < 2 ^ 32) && decide (v ≠ d) && Memory.wfFrom d (k + 1) m

/-- The canonical form: equal memories are equal lists (20_memory.md R50, R51; log 16). -/
def Memory.wf (d : Byte) (m : Memory) : Bool := Memory.wfFrom d 0 m

/-- Write `bytes` at consecutive addresses from `a` (20_memory.md R70). -/
def Memory.setBytes (d : Byte) : Memory → Nat → List Byte → Memory
  | m, _, [] => m
  | m, a, b :: bs => Memory.setBytes d (Memory.set d m a b) (a + 1) bs

end Sys2Proof.Machine
end

