-- ==== Sys2Proof/Syntax.lean ====
section
/-! DEFINITION. Syntax.lean: the 51 instructions of 00_scope.md R2, one constructor per row of spec/opcode_table.json,
operands in the assembler order of 30_encoding.md R96. A constructor carries the fields its rule uses and no ignored
field (30_encoding.md R86), but for `jalr`, whose rd the parameter JALR_RD looks at (46_branch_jump.md R207). -/

namespace Sys2Proof

/-- An instruction of the hardware. `rs`, `rt`, `rd`, `shamt`, `imm`, `offset` are the fields of 30_encoding.md
R82 to R84. -/
inductive Instr where
  -- 41_arithmetic.md
  | add     (rd rs rt : RegIdx)
  | addu    (rd rs rt : RegIdx)
  | sub     (rd rs rt : RegIdx)
  | subu    (rd rs rt : RegIdx)
  | addi    (rt rs : RegIdx) (imm : BitVec 16)
  | addiu   (rt rs : RegIdx) (imm : BitVec 16)
  -- 42_muldiv_hilo.md
  | mult    (rs rt : RegIdx)
  | multu   (rs rt : RegIdx)
  | div     (rs rt : RegIdx)
  | divu    (rs rt : RegIdx)
  | mfhi    (rd : RegIdx)
  | mthi    (rs : RegIdx)
  | mflo    (rd : RegIdx)
  | mtlo    (rs : RegIdx)
  -- 43_shift.md
  | sll     (rd rt : RegIdx) (shamt : BitVec 5)
  | srl     (rd rt : RegIdx) (shamt : BitVec 5)
  | sra     (rd rt : RegIdx) (shamt : BitVec 5)
  | sllv    (rd rt rs : RegIdx)
  | srlv    (rd rt rs : RegIdx)
  | srav    (rd rt rs : RegIdx)
  -- 44_lui_compare.md
  | lui     (rt : RegIdx) (imm : BitVec 16)
  | slt     (rd rs rt : RegIdx)
  | sltu    (rd rs rt : RegIdx)
  | slti    (rt rs : RegIdx) (imm : BitVec 16)
  | sltiu   (rt rs : RegIdx) (imm : BitVec 16)
  -- 45_bitwise.md
  | and     (rd rs rt : RegIdx)
  | or      (rd rs rt : RegIdx)
  | xor     (rd rs rt : RegIdx)
  | nor     (rd rs rt : RegIdx)
  | andi    (rt rs : RegIdx) (imm : BitVec 16)
  | ori     (rt rs : RegIdx) (imm : BitVec 16)
  | xori    (rt rs : RegIdx) (imm : BitVec 16)
  -- 46_branch_jump.md
  | beq     (rs rt : RegIdx) (imm : BitVec 16)
  | bne     (rs rt : RegIdx) (imm : BitVec 16)
  | blez    (rs : RegIdx) (imm : BitVec 16)
  | bgtz    (rs : RegIdx) (imm : BitVec 16)
  | j       (offset : BitVec 26)
  | jal     (offset : BitVec 26)
  | jr      (rs : RegIdx)
  | jalr    (rd rs : RegIdx)
  -- 47_load_store.md
  | lb      (rt : RegIdx) (imm : BitVec 16) (rs : RegIdx)
  | lh      (rt : RegIdx) (imm : BitVec 16) (rs : RegIdx)
  | lw      (rt : RegIdx) (imm : BitVec 16) (rs : RegIdx)
  | lbu     (rt : RegIdx) (imm : BitVec 16) (rs : RegIdx)
  | lhu     (rt : RegIdx) (imm : BitVec 16) (rs : RegIdx)
  | sb      (rt : RegIdx) (imm : BitVec 16) (rs : RegIdx)
  | sh      (rt : RegIdx) (imm : BitVec 16) (rs : RegIdx)
  | sw      (rt : RegIdx) (imm : BitVec 16) (rs : RegIdx)
  -- 48_special.md
  | syscall
  /-- `break` (the mnemonic is a word of Lean's). -/
  | brk
  | trap
deriving DecidableEq, Repr

end Sys2Proof
end

