-- ==== Sys2Proof/Machine/State.lean ====
section
/-! DEFINITION. Machine/State.lean: the state the spec gives the machine, why a step can stop, and the state after
reset. -/

namespace Sys2Proof.Machine

/-- The fatal halts of 60_exceptions.md R250, each with the information the spec says is reported (R254). `pc` is the
address of the faulting instruction, `word` its raw word, `operation` the decoded instruction (log 11). All are safe:
they are the spec's own ends of a run. -/
inductive Fault where
  /-- DecodeError (R251): raised by the step's Decode stage on a word of Unknown format. Safe. -/
  | decodeError (pc word : Word)
  /-- DivideByZero (R252): raised by `div` and `divu` when x[rt] = 0. Safe. -/
  | divideByZero (pc word : Word) (operation : Instr)
  /-- DivideOverflow (42_muldiv_hilo.md R152): raised by `div` of 0x80000000 by 0xFFFFFFFF under
  DIV_OVERFLOW = fatal. Safe. -/
  | divideOverflow (pc word : Word) (operation : Instr)
  /-- AlignmentViolation(fetch, pc) (20_memory.md R57): raised by the step's Fetch stage. Safe. -/
  | fetchMisaligned (pc : Word)
  /-- AlignmentViolation(data, addr) (20_memory.md R58, R59): raised by `lw`, `sw`, and by `lh`, `lhu`, `sh` under
  HALF_ALIGN = fatal. Safe. -/
  | dataMisaligned (addr pc word : Word) (operation : Instr)
deriving DecidableEq, Repr

/-- Where the model gives no meaning. -/
inductive Refusal where
  /-- Raised by an arm of `exec` whose instruction has no meaning yet; no arm is one. Safe. -/
  | notModelled (mnemonic : String)
  /-- Raised by `lh`, `lhu`, `sh` at 0xFFFFFFFF under HALF_ALIGN = permit: outside the access primitive's domain, "so
  refused by the model" (20_memory.md R59, D24). Safe. -/
  | accessPastTop (addr : Word)
  /-- Raised by `jalr` with rd other than 31 under JALR_RD = refuse (46_branch_jump.md R207, D6). Safe. -/
  | jalrLinkNot31 (rd : RegIdx)
  /-- Raised by `step` when the run has ended: a step requires status = Running (40_pipeline.md R120). Safe. -/
  | runEnded
deriving DecidableEq, Repr

/-- The runner's `status` (10_state.md R31). -/
inductive Status where
  | running
  | budgetReached
  | fatal (fault : Fault)
deriving DecidableEq, Repr

/-- The machine's state: the architectural state of 10_state.md, the run-control state of its R31, and the
configuration the run was launched with (the model's own field, log 7). -/
structure State where
  /-- The general registers (R20). Slot 0 is never read nor written: see `State.readReg` (R21; log 13). -/
  regs      : Vector Word 32
  /-- HI (R24). -/
  hi        : Word
  /-- LO (R24). -/
  lo        : Word
  /-- The program counter: the address of the next instruction to execute (R25). -/
  pc        : Word
  /-- The functional memory (R29). -/
  mem       : Memory
  /-- The configuration parameters, constant during a run. -/
  config    : Config
  /-- steps_done (R31). -/
  stepsDone : Nat
  /-- status (R31). -/
  status    : Status
deriving DecidableEq, Repr

/-- The state after reset and before the loader acts, under configuration `c` and with pc at `entry`
(10_state.md R32). -/
def State.resetWith (c : Config) (entry : Word) : State where
  regs      := Vector.replicate 32 0x00000000#32
  hi        := 0x00000000#32
  lo        := 0x00000000#32
  pc        := entry
  mem       := []
  config    := c
  stepsDone := 0
  status    := .running

/-- Reset under the spec's default configuration. -/
def State.resetAt (entry : Word) : State := State.resetWith launchConfig entry

/-- Reset at the model's own entry address (log 8). A program comes to run by being loaded from outside (log 9). -/
def State.reset : State := State.resetAt launchEntry

end Sys2Proof.Machine
end

