-- ==== Sys2Proof/Machine/Ops.lean ====
section
/-! DEFINITION. Machine/Ops.lean: the named operations over registers and memory that every meaning is written in, the
checks of a data access, and the fatal halt. -/

namespace Sys2Proof.Machine

/-- The outcome of a meaning or of a step. -/
abbrev Result := Host.Outcome State Fault Refusal

/-! ## Registers (10_state.md R20 to R26) -/

/-- The index of the link register (10_state.md R23, D5). -/
def linkReg : RegIdx := 31#5

/-- Read x[r]; x[0] reads zero (10_state.md R21). -/
def State.readReg (s : State) (r : RegIdx) : Word :=
  if r = 0#5 then 0x00000000#32 else s.regs[r.toNat]'r.isLt

/-- `x[r] <- v`; a write to x[0] is discarded (10_state.md R21, D4). -/
def State.writeReg (s : State) (r : RegIdx) (v : Word) : State :=
  if r = 0#5 then s else { s with regs := s.regs.set r.toNat v r.isLt }

/-- `HI <- v`. -/
def State.setHi (s : State) (v : Word) : State := { s with hi := v }

/-- `LO <- v`. -/
def State.setLo (s : State) (v : Word) : State := { s with lo := v }

/-- `pc <- target`. -/
def State.setPc (s : State) (target : Word) : State := { s with pc := target }

/-- The default next pc, `pc + 4` modulo 2^32 (10_state.md R26, D13). -/
def State.nextPc (s : State) : Word := s.pc + 4#32

/-- `pc <- pc + 4` (10_state.md R26, 40_pipeline.md R117). -/
def State.advance (s : State) : State := s.setPc s.nextPc

/-! ## Memory (20_memory.md R54, R55)

The spec's access primitives are defined for `u(a) + n ≤ 2^32` only. Outside that domain these operations wrap modulo
2^32: DESIGN CHOICE (log 17), since D24 and U15 leave it undefined. No access of a step is outside it. -/

/-- The byte at address `a`. -/
def State.readByte (s : State) (a : Word) : Byte := Memory.get s.config.memDefault s.mem a.toNat

/-- `MemRead(a, 2)`; at `a` with `u(a) + 2 > 2^32` it wraps: DESIGN CHOICE (log 17). -/
def State.readHalf (s : State) (a : Word) : Half :=
  joinHalf s.config.byteOrder (s.readByte a) (s.readByte (a + 1#32))

/-- `MemRead(a, 4)`; at `a` with `u(a) + 4 > 2^32` it wraps: DESIGN CHOICE (log 17). -/
def State.readWord (s : State) (a : Word) : Word :=
  joinWord s.config.byteOrder (s.readByte a) (s.readByte (a + 1#32)) (s.readByte (a + 2#32)) (s.readByte (a + 3#32))

/-- `MemWrite(a, 1, v)`. -/
def State.writeByte (s : State) (a : Word) (v : Byte) : State :=
  { s with mem := Memory.set s.config.memDefault s.mem a.toNat v }

/-- `MemWrite(a, 2, v)`; at `a` with `u(a) + 2 > 2^32` it wraps: DESIGN CHOICE (log 17). -/
def State.writeHalf (s : State) (a : Word) (v : Half) : State :=
  (s.writeByte a (halfByte s.config.byteOrder v 0)).writeByte (a + 1#32) (halfByte s.config.byteOrder v 1)

/-- `MemWrite(a, 4, v)`; at `a` with `u(a) + 4 > 2^32` it wraps: DESIGN CHOICE (log 17). -/
def State.writeWord (s : State) (a : Word) (v : Word) : State :=
  (((s.writeByte a (wordByte s.config.byteOrder v 0)).writeByte (a + 1#32) (wordByte s.config.byteOrder v 1)).writeByte
    (a + 2#32) (wordByte s.config.byteOrder v 2)).writeByte (a + 3#32) (wordByte s.config.byteOrder v 3)

/-- The raw word the step at this state fetches, `MemRead(pc, 4)` (40_pipeline.md R111). -/
def State.fetchWord (s : State) : Word := s.readWord s.pc

/-! ## The fatal halt (60_exceptions.md R257 to R259)

This is the hardware's whole exception mechanism: nothing is saved, no mode or status changes, control goes nowhere;
there is no vector and no return. -/

/-- `raise`: the step is abandoned with no change to any state (60_exceptions.md R257, 40_pipeline.md R119). -/
def raise (f : Fault) : Result := .fault f

/-! ## The data access (20_memory.md R56 to R60) -/

/-- The width of a data access. -/
inductive Width where
  | byte
  | half
  | word
deriving DecidableEq, Repr

/-- What the MemoryAccess stage finds before it accesses. -/
inductive Access where
  | legal
  | misaligned
  | pastTop
deriving DecidableEq, Repr

/-- The check of a data access at `a`: byte R60, halfword R59, word R58 of 20_memory.md. -/
def accessCheck (c : Config) (width : Width) (a : Word) : Access :=
  match width with
  | .byte => .legal
  | .half =>
    if a.extractLsb' 0 1 = 0#1 then .legal
    else
      match c.halfAlign with
      | .fatal => .misaligned
      | .permit => if a.toNat + 2 ≤ 2 ^ 32 then .legal else .pastTop
  | .word => if a.extractLsb' 0 2 = 0#2 then .legal else .misaligned

/-! ## How an instruction ends -/

/-- Write one general register and go on: `x[r] <- v; pc <- pc + 4`. -/
def writeResult (r : RegIdx) (v : Word) (s : State) : Result := .next (s.writeReg r v).advance

/-- Write both accumulators and go on: `HI <- hi; LO <- lo; pc <- pc + 4`. -/
def writeHiLo (hi lo : Word) (s : State) : Result := .next ((s.setHi hi).setLo lo).advance

/-- `pc <- target`, and nothing else. -/
def jumpTo (target : Word) (s : State) : Result := .next (s.setPc target)

/-- `x[31] <- pc + 4; pc <- target` (46_branch_jump.md R205, R207). -/
def linkAndJump (target : Word) (s : State) : Result := .next ((s.writeReg linkReg s.nextPc).setPc target)

/-- A load `op` of `width` at `a` whose extended value is `v`: the check, then `x[rt] <- v; pc <- pc + 4`
(40_pipeline.md R115). -/
def loadResult (op : Instr) (width : Width) (a : Word) (rt : RegIdx) (v : Word) (s : State) : Result :=
  match accessCheck s.config width a with
  | .legal => writeResult rt v s
  | .misaligned => raise (.dataMisaligned a s.pc s.fetchWord op)
  | .pastTop => .refused (.accessPastTop a)

/-- A store `op` of `width` at `a` whose `MemWrite` makes `stored` of the state: the check, then the store and
`pc <- pc + 4` (40_pipeline.md R115). -/
def storeResult (op : Instr) (width : Width) (a : Word) (stored : State) (s : State) : Result :=
  match accessCheck s.config width a with
  | .legal => .next stored.advance
  | .misaligned => raise (.dataMisaligned a s.pc s.fetchWord op)
  | .pastTop => .refused (.accessPastTop a)

end Sys2Proof.Machine
end

