-- ==== Sys2Proof/Machine/Operands.lean ====
section
/-! DEFINITION. Machine/Operands.lean: every operand form of 30_encoding.md R87 to R90 and the effective address of
47_load_store.md R220. -/

namespace Sys2Proof.Machine

/-- `sext_32(imm)`: arithmetic and comparison immediates, displacements (30_encoding.md R87). -/
def signImm (imm : BitVec 16) : Word := imm.signExtend 32

/-- `zext_32(imm)`: logical immediates (30_encoding.md R87). -/
def zeroImm (imm : BitVec 16) : Word := imm.zeroExtend 32

/-- `imm || 0x0000`: the operand of `lui` (30_encoding.md R87). -/
def upperImm (imm : BitVec 16) : Word := imm ++ 0x0000#16

/-- The target of a taken branch, `pc + 4 + (sext_32(imm) << 2)` modulo 2^32 (30_encoding.md R88). -/
def branchTarget (pc : Word) (imm : BitVec 16) : Word := pc + 4#32 + (signImm imm <<< 2)

/-- The target of `j` and `jal`, `(pc + 4)[31:28] || offset || 0b00` (30_encoding.md R89). -/
def jumpTarget (pc : Word) (offset : BitVec 26) : Word := (pc + 4#32).extractLsb' 28 4 ++ offset ++ 0b00#2

/-- The shift amount in a register, its low 5 bits (30_encoding.md R90, 43_shift.md R176). -/
def shiftAmount (v : Word) : BitVec 5 := v.extractLsb' 0 5

/-- `addr = trunc_32(u(vs) + u(sext_32(imm)))`, the only addressing mode (47_load_store.md R220). -/
def effectiveAddress (base : Word) (imm : BitVec 16) : Word := base + signImm imm

/-- `sext_32` of a loaded byte (47_load_store.md R221). -/
def signByte (b : Byte) : Word := b.signExtend 32

/-- `zext_32` of a loaded byte (47_load_store.md R224). -/
def zeroByte (b : Byte) : Word := b.zeroExtend 32

/-- `sext_32` of a loaded halfword (47_load_store.md R222). -/
def signHalf (h : Half) : Word := h.signExtend 32

/-- `zext_32` of a loaded halfword (47_load_store.md R225). -/
def zeroHalf (h : Half) : Word := h.zeroExtend 32

/-- `vt[7:0]`, what `sb` stores (47_load_store.md R226). -/
def lowByte (v : Word) : Byte := v.extractLsb' 0 8

/-- `vt[15:0]`, what `sh` stores (47_load_store.md R227). -/
def lowHalf (v : Word) : Half := v.extractLsb' 0 16

end Sys2Proof.Machine
end

