-- ==== Sys2Proof/Machine/Arithmetic.lean ====
section
/-! DEFINITION. Machine/Arithmetic.lean: add and subtract, 41_arithmetic.md R140 to R146. All wrap modulo 2^32; none
traps. -/

namespace Sys2Proof.Machine

/-- `add` (R140). -/
def execAdd (rd rs rt : RegIdx) (s : State) : Result := writeResult rd (s.readReg rs + s.readReg rt) s

/-- `addu` (R141). -/
def execAddu (rd rs rt : RegIdx) (s : State) : Result := writeResult rd (s.readReg rs + s.readReg rt) s

/-- `sub` (R142). -/
def execSub (rd rs rt : RegIdx) (s : State) : Result := writeResult rd (s.readReg rs - s.readReg rt) s

/-- `subu` (R143). -/
def execSubu (rd rs rt : RegIdx) (s : State) : Result := writeResult rd (s.readReg rs - s.readReg rt) s

/-- `addi` (R144). -/
def execAddi (rt rs : RegIdx) (imm : BitVec 16) (s : State) : Result := writeResult rt (s.readReg rs + signImm imm) s

/-- `addiu` (R145; the immediate is sign-extended, 90_conflicts.md C9). -/
def execAddiu (rt rs : RegIdx) (imm : BitVec 16) (s : State) : Result := writeResult rt (s.readReg rs + signImm imm) s

end Sys2Proof.Machine
end

