-- ==== Sys2Proof/Machine/Bitwise.lean ====
section
/-! DEFINITION. Machine/Bitwise.lean: bitwise logic, 45_bitwise.md R190 to R196. -/

namespace Sys2Proof.Machine

/-- `and` (R190). -/
def execAnd (rd rs rt : RegIdx) (s : State) : Result := writeResult rd (s.readReg rs &&& s.readReg rt) s

/-- `or` (R191). -/
def execOr (rd rs rt : RegIdx) (s : State) : Result := writeResult rd (s.readReg rs ||| s.readReg rt) s

/-- `xor` (R192). -/
def execXor (rd rs rt : RegIdx) (s : State) : Result := writeResult rd (s.readReg rs ^^^ s.readReg rt) s

/-- `nor` (R193). -/
def execNor (rd rs rt : RegIdx) (s : State) : Result := writeResult rd (~~~(s.readReg rs ||| s.readReg rt)) s

/-- `andi` (R194). -/
def execAndi (rt rs : RegIdx) (imm : BitVec 16) (s : State) : Result := writeResult rt (s.readReg rs &&& zeroImm imm) s

/-- `ori` (R195). -/
def execOri (rt rs : RegIdx) (imm : BitVec 16) (s : State) : Result := writeResult rt (s.readReg rs ||| zeroImm imm) s

/-- `xori` (R196). -/
def execXori (rt rs : RegIdx) (imm : BitVec 16) (s : State) : Result := writeResult rt (s.readReg rs ^^^ zeroImm imm) s

end Sys2Proof.Machine
end

