-- ==== Sys2Proof/Machine/Flags.lean ====
section
/-! DEFINITION. Machine/Flags.lean: the hardware has no flags, condition codes or predicates (10_state.md R27). What
stands in their place is here: the 0 or 1 a comparison writes (44_lui_compare.md) and the conditions a branch computes
from register values (46_branch_jump.md, D17). -/

namespace Sys2Proof.Machine

/-- `s(a) < s(b)` (44_lui_compare.md R181). -/
def lessSigned (a b : Word) : Bool := decide (a.toInt < b.toInt)

/-- `u(a) < u(b)` (44_lui_compare.md R182). -/
def lessUnsigned (a b : Word) : Bool := decide (a.toNat < b.toNat)

/-- The result of a comparison: 0x00000001 or 0x00000000. -/
def truthWord (c : Bool) : Word := if c then 0x00000001#32 else 0x00000000#32

/-- `vs = vt`: `beq` takes it, `bne` does not (46_branch_jump.md R200, R201). -/
def equalCond (a b : Word) : Bool := decide (a = b)

/-- `s(vs) <= 0`: `blez` takes it, `bgtz` does not (46_branch_jump.md R202, R203). -/
def nonPositiveCond (a : Word) : Bool := decide (a.toInt ≤ 0)

end Sys2Proof.Machine
end

