-- ==== Sys2Proof/Machine/BranchJump.lean ====
section
/-! DEFINITION. Machine/BranchJump.lean: branches and jumps, 46_branch_jump.md R200 to R210. No delay slots (R208). -/

namespace Sys2Proof.Machine

/-- `if taken then pc <- btarget else pc <- pc + 4` (R200 to R203). -/
def branchIf (taken : Bool) (imm : BitVec 16) (s : State) : Result :=
  jumpTo (if taken then branchTarget s.pc imm else s.nextPc) s

/-- `beq` (R200). -/
def execBeq (rs rt : RegIdx) (imm : BitVec 16) (s : State) : Result :=
  branchIf (equalCond (s.readReg rs) (s.readReg rt)) imm s

/-- `bne` (R201). -/
def execBne (rs rt : RegIdx) (imm : BitVec 16) (s : State) : Result :=
  branchIf (!equalCond (s.readReg rs) (s.readReg rt)) imm s

/-- `blez` (R202). -/
def execBlez (rs : RegIdx) (imm : BitVec 16) (s : State) : Result :=
  branchIf (nonPositiveCond (s.readReg rs)) imm s

/-- `bgtz` (R203). -/
def execBgtz (rs : RegIdx) (imm : BitVec 16) (s : State) : Result :=
  branchIf (!nonPositiveCond (s.readReg rs)) imm s

/-- `j` (R204). -/
def execJ (offset : BitVec 26) (s : State) : Result := jumpTo (jumpTarget s.pc offset) s

/-- `jal` (R205). -/
def execJal (offset : BitVec 26) (s : State) : Result := linkAndJump (jumpTarget s.pc offset) s

/-- `jr`: a misaligned target is accepted here and fatal at the next fetch (R206, R209). -/
def execJr (rs : RegIdx) (s : State) : Result := jumpTo (s.readReg rs) s

/-- `jalr`: the target is read before the link is written; rd does not select the link, but JALR_RD = refuse gives no
meaning to an rd other than 31 (R207, D6). -/
def execJalr (rd rs : RegIdx) (s : State) : Result :=
  match s.config.jalrRd with
  | .link31 => linkAndJump (s.readReg rs) s
  | .refuse => if rd = linkReg then linkAndJump (s.readReg rs) s else .refused (.jalrLinkNot31 rd)

end Sys2Proof.Machine
end

