-- ==== Sys2Proof/Machine/Compare.lean ====
section
/-! DEFINITION. Machine/Compare.lean: load upper immediate and set-on-less-than, 44_lui_compare.md R180 to R184. -/

namespace Sys2Proof.Machine

/-- `lui` (R180). -/
def execLui (rt : RegIdx) (imm : BitVec 16) (s : State) : Result := writeResult rt (upperImm imm) s

/-- `slt` (R181). -/
def execSlt (rd rs rt : RegIdx) (s : State) : Result :=
  writeResult rd (truthWord (lessSigned (s.readReg rs) (s.readReg rt))) s

/-- `sltu` (R182). -/
def execSltu (rd rs rt : RegIdx) (s : State) : Result :=
  writeResult rd (truthWord (lessUnsigned (s.readReg rs) (s.readReg rt))) s

/-- `slti` (R183). -/
def execSlti (rt rs : RegIdx) (imm : BitVec 16) (s : State) : Result :=
  writeResult rt (truthWord (lessSigned (s.readReg rs) (signImm imm))) s

/-- `sltiu`: the immediate is sign-extended, then compared as unsigned (R184). -/
def execSltiu (rt rs : RegIdx) (imm : BitVec 16) (s : State) : Result :=
  writeResult rt (truthWord (lessUnsigned (s.readReg rs) (signImm imm))) s

end Sys2Proof.Machine
end

