-- ==== Sys2Proof/Machine/LoadStore.lean ====
section
/-! DEFINITION. Machine/LoadStore.lean: loads and stores, 47_load_store.md R220 to R229. -/

namespace Sys2Proof.Machine

/-- The address of a load or store (R220). -/
def dataAddress (imm : BitVec 16) (rs : RegIdx) (s : State) : Word := effectiveAddress (s.readReg rs) imm

/-- `lb` (R221). -/
def execLb (rt : RegIdx) (imm : BitVec 16) (rs : RegIdx) (s : State) : Result :=
  loadResult (.lb rt imm rs) .byte (dataAddress imm rs s) rt (signByte (s.readByte (dataAddress imm rs s))) s

/-- `lh` (R222). -/
def execLh (rt : RegIdx) (imm : BitVec 16) (rs : RegIdx) (s : State) : Result :=
  loadResult (.lh rt imm rs) .half (dataAddress imm rs s) rt (signHalf (s.readHalf (dataAddress imm rs s))) s

/-- `lw` (R223). -/
def execLw (rt : RegIdx) (imm : BitVec 16) (rs : RegIdx) (s : State) : Result :=
  loadResult (.lw rt imm rs) .word (dataAddress imm rs s) rt (s.readWord (dataAddress imm rs s)) s

/-- `lbu` (R224). -/
def execLbu (rt : RegIdx) (imm : BitVec 16) (rs : RegIdx) (s : State) : Result :=
  loadResult (.lbu rt imm rs) .byte (dataAddress imm rs s) rt (zeroByte (s.readByte (dataAddress imm rs s))) s

/-- `lhu` (R225). -/
def execLhu (rt : RegIdx) (imm : BitVec 16) (rs : RegIdx) (s : State) : Result :=
  loadResult (.lhu rt imm rs) .half (dataAddress imm rs s) rt (zeroHalf (s.readHalf (dataAddress imm rs s))) s

/-- `sb` (R226). -/
def execSb (rt : RegIdx) (imm : BitVec 16) (rs : RegIdx) (s : State) : Result :=
  storeResult (.sb rt imm rs) .byte (dataAddress imm rs s)
    (s.writeByte (dataAddress imm rs s) (lowByte (s.readReg rt))) s

/-- `sh` (R227). -/
def execSh (rt : RegIdx) (imm : BitVec 16) (rs : RegIdx) (s : State) : Result :=
  storeResult (.sh rt imm rs) .half (dataAddress imm rs s)
    (s.writeHalf (dataAddress imm rs s) (lowHalf (s.readReg rt))) s

/-- `sw` (R228). -/
def execSw (rt : RegIdx) (imm : BitVec 16) (rs : RegIdx) (s : State) : Result :=
  storeResult (.sw rt imm rs) .word (dataAddress imm rs s) (s.writeWord (dataAddress imm rs s) (s.readReg rt)) s

end Sys2Proof.Machine
end

