-- ==== Sys2Proof/Machine/MulDiv.lean ====
section
/-! DEFINITION. Machine/MulDiv.lean: multiply, divide and the HI/LO moves, 42_muldiv_hilo.md R150 to R158. -/

namespace Sys2Proof.Machine

/-- Split a 64-bit product: `HI <- P[63:32]; LO <- P[31:0]` (R150, R151). -/
def writeProduct (p : BitVec 64) (s : State) : Result := writeHiLo (p.extractLsb' 32 32) (p.extractLsb' 0 32) s

/-- `mult`: `P = trunc_64(s(vs) * s(vt))` (R150). -/
def execMult (rs rt : RegIdx) (s : State) : Result :=
  writeProduct (BitVec.ofInt 64 ((s.readReg rs).toInt * (s.readReg rt).toInt)) s

/-- `multu`: `P = trunc_64(u(vs) * u(vt))` (R151). -/
def execMultu (rs rt : RegIdx) (s : State) : Result :=
  writeProduct (BitVec.ofNat 64 ((s.readReg rs).toNat * (s.readReg rt).toNat)) s

/-- `s(a) / s(b)` rounded toward zero (R152, D11). -/
def signedQuotient (a b : Word) : Int := a.toInt.tdiv b.toInt

/-- `s(a) - q * s(b)` (R152). -/
def signedRemainder (a b : Word) : Int := a.toInt - signedQuotient a b * b.toInt

/-- `div` (R152): the quotient in LO, the remainder in HI; a zero divisor is fatal, and so is the overflow pair unless
DIV_OVERFLOW = wrap (D12). -/
def execDiv (rs rt : RegIdx) (s : State) : Result :=
  let a := s.readReg rs
  let b := s.readReg rt
  if b = 0x00000000#32 then raise (.divideByZero s.pc s.fetchWord (.div rs rt))
  else if a = 0x80000000#32 ∧ b = 0xFFFFFFFF#32 then
    match s.config.divOverflow with
    | .fatal => raise (.divideOverflow s.pc s.fetchWord (.div rs rt))
    | .wrap => writeHiLo 0x00000000#32 0x80000000#32 s
  else writeHiLo (BitVec.ofInt 32 (signedRemainder a b)) (BitVec.ofInt 32 (signedQuotient a b)) s

/-- `divu` (R153). -/
def execDivu (rs rt : RegIdx) (s : State) : Result :=
  let a := s.readReg rs
  let b := s.readReg rt
  if b = 0x00000000#32 then raise (.divideByZero s.pc s.fetchWord (.divu rs rt))
  else writeHiLo (BitVec.ofNat 32 (a.toNat % b.toNat)) (BitVec.ofNat 32 (a.toNat / b.toNat)) s

/-- `mfhi` (R154). -/
def execMfhi (rd : RegIdx) (s : State) : Result := writeResult rd s.hi s

/-- `mthi` (R155). -/
def execMthi (rs : RegIdx) (s : State) : Result := .next (s.setHi (s.readReg rs)).advance

/-- `mflo` (R156). -/
def execMflo (rd : RegIdx) (s : State) : Result := writeResult rd s.lo s

/-- `mtlo` (R157). -/
def execMtlo (rs : RegIdx) (s : State) : Result := .next (s.setLo (s.readReg rs)).advance

end Sys2Proof.Machine
end

