-- ==== Sys2Proof/Machine/Shift.lean ====
section
/-! DEFINITION. Machine/Shift.lean: shifts, 43_shift.md R170 to R176. The amount is a 5-bit vector, so never 32 or
more (R176). -/

namespace Sys2Proof.Machine

/-- `v << n` (00_scope.md R9). -/
def shiftLeft (v : Word) (n : BitVec 5) : Word := v <<< n.toNat

/-- `v >>u n` (00_scope.md R9). -/
def shiftRightLogical (v : Word) (n : BitVec 5) : Word := v >>> n.toNat

/-- `v >>s n` (00_scope.md R9). -/
def shiftRightArith (v : Word) (n : BitVec 5) : Word := v.sshiftRight n.toNat

/-- `sll` (R170). -/
def execSll (rd rt : RegIdx) (shamt : BitVec 5) (s : State) : Result :=
  writeResult rd (shiftLeft (s.readReg rt) shamt) s

/-- `srl` (R171). -/
def execSrl (rd rt : RegIdx) (shamt : BitVec 5) (s : State) : Result :=
  writeResult rd (shiftRightLogical (s.readReg rt) shamt) s

/-- `sra` (R172). -/
def execSra (rd rt : RegIdx) (shamt : BitVec 5) (s : State) : Result :=
  writeResult rd (shiftRightArith (s.readReg rt) shamt) s

/-- `sllv` (R173). -/
def execSllv (rd rt rs : RegIdx) (s : State) : Result :=
  writeResult rd (shiftLeft (s.readReg rt) (shiftAmount (s.readReg rs))) s

/-- `srlv` (R174). -/
def execSrlv (rd rt rs : RegIdx) (s : State) : Result :=
  writeResult rd (shiftRightLogical (s.readReg rt) (shiftAmount (s.readReg rs))) s

/-- `srav` (R175). -/
def execSrav (rd rt rs : RegIdx) (s : State) : Result :=
  writeResult rd (shiftRightArith (s.readReg rt) (shiftAmount (s.readReg rs))) s

end Sys2Proof.Machine
end

