-- ==== Sys2Proof/Machine/Special.lean ====
section
/-! DEFINITION. Machine/Special.lean: `syscall`, `break`, `trap`, 48_special.md R240 to R243: no-operations, which
change nothing but pc. -/

namespace Sys2Proof.Machine

/-- `syscall` (R240, D22). -/
def execSyscall (s : State) : Result := .next s.advance

/-- `break` (R241, D22). -/
def execBreak (s : State) : Result := .next s.advance

/-- `trap` (R242, D22): not a jump. -/
def execTrap (s : State) : Result := .next s.advance

end Sys2Proof.Machine
end

