-- ==== Sys2Proof/Machine/Dispatch.lean ====
section
/-! DEFINITION. Machine/Dispatch.lean: one arm per instruction, each one call of its meaning (40_pipeline.md R123). -/

namespace Sys2Proof.Machine

/-- What instruction `i` does at state `s`: the Execute to UpdatePC stages of a step (40_pipeline.md R114 to R117). -/
def exec (i : Instr) (s : State) : Host.Outcome State Fault Refusal :=
  match i with
  -- 41_arithmetic.md
  | .add rd rs rt => Sys2Proof.Machine.execAdd rd rs rt s
  | .addu rd rs rt => Sys2Proof.Machine.execAddu rd rs rt s
  | .sub rd rs rt => Sys2Proof.Machine.execSub rd rs rt s
  | .subu rd rs rt => Sys2Proof.Machine.execSubu rd rs rt s
  | .addi rt rs imm => Sys2Proof.Machine.execAddi rt rs imm s
  | .addiu rt rs imm => Sys2Proof.Machine.execAddiu rt rs imm s
  -- 42_muldiv_hilo.md
  | .mult rs rt => Sys2Proof.Machine.execMult rs rt s
  | .multu rs rt => Sys2Proof.Machine.execMultu rs rt s
  | .div rs rt => Sys2Proof.Machine.execDiv rs rt s
  | .divu rs rt => Sys2Proof.Machine.execDivu rs rt s
  | .mfhi rd => Sys2Proof.Machine.execMfhi rd s
  | .mthi rs => Sys2Proof.Machine.execMthi rs s
  | .mflo rd => Sys2Proof.Machine.execMflo rd s
  | .mtlo rs => Sys2Proof.Machine.execMtlo rs s
  -- 43_shift.md
  | .sll rd rt shamt => Sys2Proof.Machine.execSll rd rt shamt s
  | .srl rd rt shamt => Sys2Proof.Machine.execSrl rd rt shamt s
  | .sra rd rt shamt => Sys2Proof.Machine.execSra rd rt shamt s
  | .sllv rd rt rs => Sys2Proof.Machine.execSllv rd rt rs s
  | .srlv rd rt rs => Sys2Proof.Machine.execSrlv rd rt rs s
  | .srav rd rt rs => Sys2Proof.Machine.execSrav rd rt rs s
  -- 44_lui_compare.md
  | .lui rt imm => Sys2Proof.Machine.execLui rt imm s
  | .slt rd rs rt => Sys2Proof.Machine.execSlt rd rs rt s
  | .sltu rd rs rt => Sys2Proof.Machine.execSltu rd rs rt s
  | .slti rt rs imm => Sys2Proof.Machine.execSlti rt rs imm s
  | .sltiu rt rs imm => Sys2Proof.Machine.execSltiu rt rs imm s
  -- 45_bitwise.md
  | .and rd rs rt => Sys2Proof.Machine.execAnd rd rs rt s
  | .or rd rs rt => Sys2Proof.Machine.execOr rd rs rt s
  | .xor rd rs rt => Sys2Proof.Machine.execXor rd rs rt s
  | .nor rd rs rt => Sys2Proof.Machine.execNor rd rs rt s
  | .andi rt rs imm => Sys2Proof.Machine.execAndi rt rs imm s
  | .ori rt rs imm => Sys2Proof.Machine.execOri rt rs imm s
  | .xori rt rs imm => Sys2Proof.Machine.execXori rt rs imm s
  -- 46_branch_jump.md
  | .beq rs rt imm => Sys2Proof.Machine.execBeq rs rt imm s
  | .bne rs rt imm => Sys2Proof.Machine.execBne rs rt imm s
  | .blez rs imm => Sys2Proof.Machine.execBlez rs imm s
  | .bgtz rs imm => Sys2Proof.Machine.execBgtz rs imm s
  | .j offset => Sys2Proof.Machine.execJ offset s
  | .jal offset => Sys2Proof.Machine.execJal offset s
  | .jr rs => Sys2Proof.Machine.execJr rs s
  | .jalr rd rs => Sys2Proof.Machine.execJalr rd rs s
  -- 47_load_store.md
  | .lb rt imm rs => Sys2Proof.Machine.execLb rt imm rs s
  | .lh rt imm rs => Sys2Proof.Machine.execLh rt imm rs s
  | .lw rt imm rs => Sys2Proof.Machine.execLw rt imm rs s
  | .lbu rt imm rs => Sys2Proof.Machine.execLbu rt imm rs s
  | .lhu rt imm rs => Sys2Proof.Machine.execLhu rt imm rs s
  | .sb rt imm rs => Sys2Proof.Machine.execSb rt imm rs s
  | .sh rt imm rs => Sys2Proof.Machine.execSh rt imm rs s
  | .sw rt imm rs => Sys2Proof.Machine.execSw rt imm rs s
  -- 48_special.md
  | .syscall => Sys2Proof.Machine.execSyscall s
  | .brk => Sys2Proof.Machine.execBreak s
  | .trap => Sys2Proof.Machine.execTrap s

end Sys2Proof.Machine
end

