-- ==== Sys2Proof/WellFormed.lean ====
section
/-! DEFINITION. WellFormed.lean: which configurations and which instructions the spec's text is about. Field widths
need no check: an index, a shift amount, an immediate and an offset are bit vectors of the field's width
(60_exceptions.md R262). -/

namespace Sys2Proof

/-- The primary opcodes of 30_encoding.md R91 other than that of `trap`: the Register-type family's 0x00 and the 22
of the Immediate-type and Jump-type instructions. -/
def primaryOpcodes : List (BitVec 6) :=
  [0x00#6, 0x02#6, 0x03#6, 0x04#6, 0x05#6, 0x06#6, 0x07#6, 0x08#6, 0x09#6, 0x0A#6, 0x0B#6, 0x0C#6] ++
  [0x0D#6, 0x0E#6, 0x0F#6, 0x20#6, 0x21#6, 0x23#6, 0x24#6, 0x25#6, 0x28#6, 0x29#6, 0x2B#6]

/-- TRAP_OPCODE is an opcode that "collides with nothing" (92_eei_decisions.md D10; log 6). -/
def Config.wellFormed (c : Config) : Bool := !primaryOpcodes.contains c.trapOpcode

/-- The instruction has a meaning under the configuration: with JALR_RD = refuse a `jalr` has one only when its rd
is 31 (46_branch_jump.md R207, D6). Every other instruction has one under every configuration. -/
def Instr.wellFormed (c : Config) : Instr → Bool
  | .jalr rd _ => c.jalrRd == .link31 || rd == 31#5
  | .add _ _ _ | .addu _ _ _ | .sub _ _ _ | .subu _ _ _ | .addi _ _ _ | .addiu _ _ _ => true
  | .mult _ _ | .multu _ _ | .div _ _ | .divu _ _ | .mfhi _ | .mthi _ | .mflo _ | .mtlo _ => true
  | .sll _ _ _ | .srl _ _ _ | .sra _ _ _ | .sllv _ _ _ | .srlv _ _ _ | .srav _ _ _ => true
  | .lui _ _ | .slt _ _ _ | .sltu _ _ _ | .slti _ _ _ | .sltiu _ _ _ => true
  | .and _ _ _ | .or _ _ _ | .xor _ _ _ | .nor _ _ _ | .andi _ _ _ | .ori _ _ _ | .xori _ _ _ => true
  | .beq _ _ _ | .bne _ _ _ | .blez _ _ | .bgtz _ _ | .j _ | .jal _ | .jr _ => true
  | .lb _ _ _ | .lh _ _ _ | .lw _ _ _ | .lbu _ _ _ | .lhu _ _ _ | .sb _ _ _ | .sh _ _ _ | .sw _ _ _ => true
  | .syscall | .brk | .trap => true

end Sys2Proof
end

