-- ==== Sys2Proof/Decode.lean ====
section
/-! DEFINITION. Decode.lean: the decoder of 30_encoding.md R85 over the tables R91 and R92, total on every word and on
every list of bytes, refusing by name; and after it the encoder, from the same tables and the layouts R82 to R84. -/

namespace Sys2Proof

/-- Why the decoder gives no instruction: the word has the Unknown format (30_encoding.md R93), or there are fewer than
four bytes to decode (R80). -/
inductive DecodeReject where
  /-- The opcode is unassigned in R91. -/
  | unassignedOpcode (opcode : BitVec 6)
  /-- The opcode is 0 and the function code is unassigned in R92. -/
  | unassignedFunct (funct : BitVec 6)
  /-- Only `n` bytes, `n < 4`. -/
  | tooFewBytes (n : Nat)
deriving DecidableEq, Repr

/-! ## Fields (30_encoding.md R82 to R84) -/

/-- `word[31:26]`. -/
def opcodeOf (w : Word) : BitVec 6 := w.extractLsb' 26 6
/-- `word[25:21]`. -/
def rsOf (w : Word) : RegIdx := w.extractLsb' 21 5
/-- `word[20:16]`. -/
def rtOf (w : Word) : RegIdx := w.extractLsb' 16 5
/-- `word[15:11]`. -/
def rdOf (w : Word) : RegIdx := w.extractLsb' 11 5
/-- `word[10:6]`. -/
def shamtOf (w : Word) : BitVec 5 := w.extractLsb' 6 5
/-- `word[5:0]`. -/
def functOf (w : Word) : BitVec 6 := w.extractLsb' 0 6
/-- `word[15:0]`. -/
def immOf (w : Word) : BitVec 16 := w.extractLsb' 0 16
/-- `word[25:0]`. -/
def offsetOf (w : Word) : BitVec 26 := w.extractLsb' 0 26

/-! ## The decoder -/

/-- The Register-type family: opcode 0, selected by the function code (30_encoding.md R92). -/
def decodeRegister (w : Word) : Except DecodeReject Instr :=
  match functOf w with
  | 0x00#6 => .ok (.sll (rdOf w) (rtOf w) (shamtOf w))
  | 0x02#6 => .ok (.srl (rdOf w) (rtOf w) (shamtOf w))
  | 0x03#6 => .ok (.sra (rdOf w) (rtOf w) (shamtOf w))
  | 0x04#6 => .ok (.sllv (rdOf w) (rtOf w) (rsOf w))
  | 0x06#6 => .ok (.srlv (rdOf w) (rtOf w) (rsOf w))
  | 0x07#6 => .ok (.srav (rdOf w) (rtOf w) (rsOf w))
  | 0x08#6 => .ok (.jr (rsOf w))
  | 0x09#6 => .ok (.jalr (rdOf w) (rsOf w))
  | 0x0C#6 => .ok .syscall
  | 0x0D#6 => .ok .brk
  | 0x10#6 => .ok (.mfhi (rdOf w))
  | 0x11#6 => .ok (.mthi (rsOf w))
  | 0x12#6 => .ok (.mflo (rdOf w))
  | 0x13#6 => .ok (.mtlo (rsOf w))
  | 0x18#6 => .ok (.mult (rsOf w) (rtOf w))
  | 0x19#6 => .ok (.multu (rsOf w) (rtOf w))
  | 0x1A#6 => .ok (.div (rsOf w) (rtOf w))
  | 0x1B#6 => .ok (.divu (rsOf w) (rtOf w))
  | 0x20#6 => .ok (.add (rdOf w) (rsOf w) (rtOf w))
  | 0x21#6 => .ok (.addu (rdOf w) (rsOf w) (rtOf w))
  | 0x22#6 => .ok (.sub (rdOf w) (rsOf w) (rtOf w))
  | 0x23#6 => .ok (.subu (rdOf w) (rsOf w) (rtOf w))
  | 0x24#6 => .ok (.and (rdOf w) (rsOf w) (rtOf w))
  | 0x25#6 => .ok (.or (rdOf w) (rsOf w) (rtOf w))
  | 0x26#6 => .ok (.xor (rdOf w) (rsOf w) (rtOf w))
  | 0x27#6 => .ok (.nor (rdOf w) (rsOf w) (rtOf w))
  | 0x2A#6 => .ok (.slt (rdOf w) (rsOf w) (rtOf w))
  | 0x2B#6 => .ok (.sltu (rdOf w) (rsOf w) (rtOf w))
  | f => .error (.unassignedFunct f)

/-- `decode(word, pc)` of 30_encoding.md R85 over the opcode map R91. The address is no argument: R85 only records it.
`trap`'s row is the last of the table, so a TRAP_OPCODE that collides with another row loses to it (log 6). -/
def decodeWord (c : Config) (w : Word) : Except DecodeReject Instr :=
  match opcodeOf w with
  | 0x00#6 => decodeRegister w
  | 0x02#6 => .ok (.j (offsetOf w))
  | 0x03#6 => .ok (.jal (offsetOf w))
  | 0x04#6 => .ok (.beq (rsOf w) (rtOf w) (immOf w))
  | 0x05#6 => .ok (.bne (rsOf w) (rtOf w) (immOf w))
  | 0x06#6 => .ok (.blez (rsOf w) (immOf w))
  | 0x07#6 => .ok (.bgtz (rsOf w) (immOf w))
  | 0x08#6 => .ok (.addi (rtOf w) (rsOf w) (immOf w))
  | 0x09#6 => .ok (.addiu (rtOf w) (rsOf w) (immOf w))
  | 0x0A#6 => .ok (.slti (rtOf w) (rsOf w) (immOf w))
  | 0x0B#6 => .ok (.sltiu (rtOf w) (rsOf w) (immOf w))
  | 0x0C#6 => .ok (.andi (rtOf w) (rsOf w) (immOf w))
  | 0x0D#6 => .ok (.ori (rtOf w) (rsOf w) (immOf w))
  | 0x0E#6 => .ok (.xori (rtOf w) (rsOf w) (immOf w))
  | 0x0F#6 => .ok (.lui (rtOf w) (immOf w))
  | 0x20#6 => .ok (.lb (rtOf w) (immOf w) (rsOf w))
  | 0x21#6 => .ok (.lh (rtOf w) (immOf w) (rsOf w))
  | 0x23#6 => .ok (.lw (rtOf w) (immOf w) (rsOf w))
  | 0x24#6 => .ok (.lbu (rtOf w) (immOf w) (rsOf w))
  | 0x25#6 => .ok (.lhu (rtOf w) (immOf w) (rsOf w))
  | 0x28#6 => .ok (.sb (rtOf w) (immOf w) (rsOf w))
  | 0x29#6 => .ok (.sh (rtOf w) (immOf w) (rsOf w))
  | 0x2B#6 => .ok (.sw (rtOf w) (immOf w) (rsOf w))
  | op => if op = c.trapOpcode then .ok .trap else .error (.unassignedOpcode op)

/-- Decode the first four bytes, taken at ascending addresses in the configuration's byte order, and give the rest
(30_encoding.md R80). -/
def decodeBytes (c : Config) : List Byte → Except DecodeReject (Instr × List Byte)
  | b0 :: b1 :: b2 :: b3 :: rest =>
    match decodeWord c (Machine.joinWord c.byteOrder b0 b1 b2 b3) with
    | .ok i => .ok (i, rest)
    | .error r => .error r
  | bytes => .error (.tooFewBytes bytes.length)

/-- The instruction the decoder reads from the bytes of the table word `w` of `nbits` bits, under the spec's default
configuration (the host's question about a row of spec/opcode_table.json). -/
def decodeTableWord (nbits w : Nat) : Option Instr :=
  match decodeBytes Machine.launchConfig
      (Machine.wordBytes Machine.launchConfig.byteOrder (BitVec.ofNat 32 (w % 2 ^ nbits))) with
  | .ok (i, _) => some i
  | .error _ => none

/-! ## The encoder -/

/-- Register-type layout, opcode 0 (30_encoding.md R82). -/
def registerWord (rs rt rd : RegIdx) (shamt : BitVec 5) (funct : BitVec 6) : Word :=
  0x00#6 ++ rs ++ rt ++ rd ++ shamt ++ funct

/-- Immediate-type layout (30_encoding.md R83). -/
def immediateWord (opcode : BitVec 6) (rs rt : RegIdx) (imm : BitVec 16) : Word :=
  opcode ++ rs ++ rt ++ imm

/-- Jump-type layout (30_encoding.md R84). -/
def jumpWord (opcode : BitVec 6) (offset : BitVec 26) : Word := opcode ++ offset

/-- The word of an instruction, every ignored field zero (30_encoding.md R86; log 14). -/
def encode (c : Config) : Instr → Word
  | .sll rd rt shamt => registerWord 0 rt rd shamt 0x00#6
  | .srl rd rt shamt => registerWord 0 rt rd shamt 0x02#6
  | .sra rd rt shamt => registerWord 0 rt rd shamt 0x03#6
  | .sllv rd rt rs => registerWord rs rt rd 0 0x04#6
  | .srlv rd rt rs => registerWord rs rt rd 0 0x06#6
  | .srav rd rt rs => registerWord rs rt rd 0 0x07#6
  | .jr rs => registerWord rs 0 0 0 0x08#6
  | .jalr rd rs => registerWord rs 0 rd 0 0x09#6
  | .syscall => registerWord 0 0 0 0 0x0C#6
  | .brk => registerWord 0 0 0 0 0x0D#6
  | .mfhi rd => registerWord 0 0 rd 0 0x10#6
  | .mthi rs => registerWord rs 0 0 0 0x11#6
  | .mflo rd => registerWord 0 0 rd 0 0x12#6
  | .mtlo rs => registerWord rs 0 0 0 0x13#6
  | .mult rs rt => registerWord rs rt 0 0 0x18#6
  | .multu rs rt => registerWord rs rt 0 0 0x19#6
  | .div rs rt => registerWord rs rt 0 0 0x1A#6
  | .divu rs rt => registerWord rs rt 0 0 0x1B#6
  | .add rd rs rt => registerWord rs rt rd 0 0x20#6
  | .addu rd rs rt => registerWord rs rt rd 0 0x21#6
  | .sub rd rs rt => registerWord rs rt rd 0 0x22#6
  | .subu rd rs rt => registerWord rs rt rd 0 0x23#6
  | .and rd rs rt => registerWord rs rt rd 0 0x24#6
  | .or rd rs rt => registerWord rs rt rd 0 0x25#6
  | .xor rd rs rt => registerWord rs rt rd 0 0x26#6
  | .nor rd rs rt => registerWord rs rt rd 0 0x27#6
  | .slt rd rs rt => registerWord rs rt rd 0 0x2A#6
  | .sltu rd rs rt => registerWord rs rt rd 0 0x2B#6
  | .j offset => jumpWord 0x02#6 offset
  | .jal offset => jumpWord 0x03#6 offset
  | .beq rs rt imm => immediateWord 0x04#6 rs rt imm
  | .bne rs rt imm => immediateWord 0x05#6 rs rt imm
  | .blez rs imm => immediateWord 0x06#6 rs 0 imm
  | .bgtz rs imm => immediateWord 0x07#6 rs 0 imm
  | .addi rt rs imm => immediateWord 0x08#6 rs rt imm
  | .addiu rt rs imm => immediateWord 0x09#6 rs rt imm
  | .slti rt rs imm => immediateWord 0x0A#6 rs rt imm
  | .sltiu rt rs imm => immediateWord 0x0B#6 rs rt imm
  | .andi rt rs imm => immediateWord 0x0C#6 rs rt imm
  | .ori rt rs imm => immediateWord 0x0D#6 rs rt imm
  | .xori rt rs imm => immediateWord 0x0E#6 rs rt imm
  | .lui rt imm => immediateWord 0x0F#6 0 rt imm
  | .lb rt imm rs => immediateWord 0x20#6 rs rt imm
  | .lh rt imm rs => immediateWord 0x21#6 rs rt imm
  | .lw rt imm rs => immediateWord 0x23#6 rs rt imm
  | .lbu rt imm rs => immediateWord 0x24#6 rs rt imm
  | .lhu rt imm rs => immediateWord 0x25#6 rs rt imm
  | .sb rt imm rs => immediateWord 0x28#6 rs rt imm
  | .sh rt imm rs => immediateWord 0x29#6 rs rt imm
  | .sw rt imm rs => immediateWord 0x2B#6 rs rt imm
  | .trap => jumpWord c.trapOpcode 0

/-! ## The bits an instruction's word is read in -/

/-- The bits of a word that select an instruction or hold a field it uses; every other bit is ignored
(30_encoding.md R86: the selecting mask is 0xFC00003F or 0xFC000000; the used fields are those of
spec/opcode_table.json and the rd of `jalr`). -/
def usedBits : Instr → Word
  | .add _ _ _ | .addu _ _ _ | .sub _ _ _ | .subu _ _ _ | .and _ _ _ | .or _ _ _ | .xor _ _ _ => 0xFFFFF83F#32
  | .nor _ _ _ | .slt _ _ _ | .sltu _ _ _ | .sllv _ _ _ | .srlv _ _ _ | .srav _ _ _ => 0xFFFFF83F#32
  | .sll _ _ _ | .srl _ _ _ | .sra _ _ _ => 0xFC1FFFFF#32
  | .mult _ _ | .multu _ _ | .div _ _ | .divu _ _ => 0xFFFF003F#32
  | .mfhi _ | .mflo _ => 0xFC00F83F#32
  | .mthi _ | .mtlo _ | .jr _ => 0xFFE0003F#32
  | .jalr _ _ => 0xFFE0F83F#32
  | .syscall | .brk => 0xFC00003F#32
  | .addi _ _ _ | .addiu _ _ _ | .slti _ _ _ | .sltiu _ _ _ | .andi _ _ _ | .ori _ _ _ | .xori _ _ _ => 0xFFFFFFFF#32
  | .beq _ _ _ | .bne _ _ _ => 0xFFFFFFFF#32
  | .lb _ _ _ | .lh _ _ _ | .lw _ _ _ | .lbu _ _ _ | .lhu _ _ _ | .sb _ _ _ | .sh _ _ _ | .sw _ _ _ => 0xFFFFFFFF#32
  | .blez _ _ | .bgtz _ _ => 0xFFE0FFFF#32
  | .lui _ _ => 0xFC1FFFFF#32
  | .j _ | .jal _ => 0xFFFFFFFF#32
  | .trap => 0xFC000000#32

end Sys2Proof
end

