-- ==== Sys2Proof/Machine/Fetch.lean ====
section
/-! DEFINITION. Machine/Fetch.lean: the Fetch and Decode stages, the count of completed steps, and laying an instruction
word down for the next fetch (40_pipeline.md R111, R112, R117; 20_memory.md R57). -/

namespace Sys2Proof.Machine

/-- `pc[1:0] = 0` (20_memory.md R57). -/
def State.pcAligned (s : State) : Bool := decide (s.pc.extractLsb' 0 2 = 0#2)

/-- Fetch and Decode: the instruction of this step, or the fatal halt that ends it (40_pipeline.md R111, R112, in the
order of 60_exceptions.md R256). -/
def fetchDecode (s : State) : Except Fault Instr :=
  if s.pcAligned then
    match decodeWord s.config s.fetchWord with
    | .ok i => .ok i
    | .error _ => .error (.decodeError s.pc s.fetchWord)
  else .error (.fetchMisaligned s.pc)

/-- `steps_done <- steps_done + 1` (40_pipeline.md R117). -/
def State.countStep (s : State) : State := { s with stepsDone := s.stepsDone + 1 }

/-- A completed step is counted; one that raises is not (70_reset_and_hazards.md R283, D20). -/
def countCompleted (r : Result) : Result :=
  match r with
  | .next t => .next t.countStep
  | .fault f => .fault f
  | .refused q => .refused q

/-- The instruction word a table row of `nbits` bits with bits `w` stands for, stored where the next step fetches, in
the byte order of the configuration (20_memory.md R70); at a pc above 0xFFFFFFFC, which is misaligned and where no step
fetches, it wraps: DESIGN CHOICE (log 17). -/
def placeWord (s : State) (nbits w : Nat) : State := s.writeWord s.pc (BitVec.ofNat 32 (w % 2 ^ nbits))

end Sys2Proof.Machine
end

