-- ==== Sys2Proof/Machine/Step.lean ====
section
/-! DEFINITION. Machine/Step.lean: the step as one function (40_pipeline.md R120). -/

namespace Sys2Proof.Machine

/-- One step (40_pipeline.md R120). `steps_done < MAX_INSTRUCTIONS` is the runner's part of R120's requirement
(Machine/Runner.lean), since MAX_INSTRUCTIONS is not state; `status = Running` is required here (log 10). -/
def step (s : State) : Host.Outcome State Fault Refusal :=
  match s.status with
  | .running =>
    match fetchDecode s with
    | .ok i => countCompleted (exec i s)
    | .error f => raise f
  | .budgetReached => .refused .runEnded
  | .fatal _ => .refused .runEnded

/-- `s` with the instruction of the table word `w` stored where `step` fetches (log 9). -/
def State.withFetchWord (s : State) (nbits w : Nat) : State := placeWord s nbits w

end Sys2Proof.Machine
end

