-- ==== Sys2Proof/Machine/Trace.lean ====
section
/-! DEFINITION. Machine/Trace.lean: the trace line of a completed step and the disassembly tool's rendering
(40_pipeline.md R118): an output, read by nothing in the hardware. -/

namespace Sys2Proof.Machine

/-- The register names of 10_state.md R22, by index (D18). -/
def regNames : List String :=
  ["zero", "at", "v0", "v1", "a0", "a1", "a2", "a3", "t0", "t1", "t2", "t3", "t4", "t5", "t6", "t7"] ++
  ["s0", "s1", "s2", "s3", "s4", "s5", "s6", "s7", "t8", "t9", "k0", "k1", "gp", "sp", "fp", "ra"]

/-- The name of x[r]. -/
def regName (r : RegIdx) : String := regNames.getD r.toNat ""

/-- The mnemonic of an instruction (00_scope.md R2). -/
def mnemonic : Instr → String
  | .add _ _ _ => "add" | .addu _ _ _ => "addu" | .sub _ _ _ => "sub" | .subu _ _ _ => "subu"
  | .addi _ _ _ => "addi" | .addiu _ _ _ => "addiu"
  | .mult _ _ => "mult" | .multu _ _ => "multu" | .div _ _ => "div" | .divu _ _ => "divu"
  | .mfhi _ => "mfhi" | .mthi _ => "mthi" | .mflo _ => "mflo" | .mtlo _ => "mtlo"
  | .sll _ _ _ => "sll" | .srl _ _ _ => "srl" | .sra _ _ _ => "sra"
  | .sllv _ _ _ => "sllv" | .srlv _ _ _ => "srlv" | .srav _ _ _ => "srav"
  | .lui _ _ => "lui" | .slt _ _ _ => "slt" | .sltu _ _ _ => "sltu" | .slti _ _ _ => "slti" | .sltiu _ _ _ => "sltiu"
  | .and _ _ _ => "and" | .or _ _ _ => "or" | .xor _ _ _ => "xor" | .nor _ _ _ => "nor"
  | .andi _ _ _ => "andi" | .ori _ _ _ => "ori" | .xori _ _ _ => "xori"
  | .beq _ _ _ => "beq" | .bne _ _ _ => "bne" | .blez _ _ => "blez" | .bgtz _ _ => "bgtz"
  | .j _ => "j" | .jal _ => "jal" | .jr _ => "jr" | .jalr _ _ => "jalr"
  | .lb _ _ _ => "lb" | .lh _ _ _ => "lh" | .lw _ _ _ => "lw" | .lbu _ _ _ => "lbu" | .lhu _ _ _ => "lhu"
  | .sb _ _ _ => "sb" | .sh _ _ _ => "sh" | .sw _ _ _ => "sw"
  | .syscall => "syscall" | .brk => "break" | .trap => "trap"

/-- An item of a trace line's operand list: a register with the value read at ReadOperands, or an immediate or
target. -/
inductive TraceOperand where
  | register (r : RegIdx) (value : Word)
  | value (v : Word)
deriving DecidableEq, Repr

/-- The four parts of a trace line, in the source's order. -/
structure TraceLine where
  pc       : Word
  raw      : Word
  mnemonic : String
  operands : List TraceOperand
deriving DecidableEq, Repr

/-- The operands of an instruction fetched as `raw` from `pc`, in the assembler order of 30_encoding.md R96; branches
and jumps show their target, `trap` its 26-bit field (this order of the data and the forms: DESIGN CHOICE, log 12; the
order of the text is open). A result register shows
its value before the instruction. -/
def traceOperands (s : State) (pc raw : Word) (i : Instr) : List TraceOperand :=
  let x := fun r : RegIdx => TraceOperand.register r (s.readReg r)
  let n := fun imm : BitVec 16 => TraceOperand.value (zeroImm imm)
  let label := fun imm : BitVec 16 => TraceOperand.value (branchTarget pc imm)
  match i with
  | .add rd rs rt | .addu rd rs rt | .sub rd rs rt | .subu rd rs rt => [x rd, x rs, x rt]
  | .slt rd rs rt | .sltu rd rs rt => [x rd, x rs, x rt]
  | .and rd rs rt | .or rd rs rt | .xor rd rs rt | .nor rd rs rt => [x rd, x rs, x rt]
  | .sll rd rt shamt | .srl rd rt shamt | .sra rd rt shamt => [x rd, x rt, .value (shamt.zeroExtend 32)]
  | .sllv rd rt rs | .srlv rd rt rs | .srav rd rt rs => [x rd, x rt, x rs]
  | .mult rs rt | .multu rs rt | .div rs rt | .divu rs rt => [x rs, x rt]
  | .mfhi rd | .mflo rd => [x rd]
  | .mthi rs | .mtlo rs | .jr rs => [x rs]
  | .jalr rd rs => [x rd, x rs]
  | .addi rt rs imm | .addiu rt rs imm | .slti rt rs imm | .sltiu rt rs imm => [x rt, x rs, n imm]
  | .andi rt rs imm | .ori rt rs imm | .xori rt rs imm => [x rt, x rs, n imm]
  | .lui rt imm => [x rt, n imm]
  | .beq rs rt imm | .bne rs rt imm => [x rs, x rt, label imm]
  | .blez rs imm | .bgtz rs imm => [x rs, label imm]
  | .lb rt imm rs | .lh rt imm rs | .lw rt imm rs | .lbu rt imm rs | .lhu rt imm rs => [x rt, n imm, x rs]
  | .sb rt imm rs | .sh rt imm rs | .sw rt imm rs => [x rt, n imm, x rs]
  | .j offset | .jal offset => [.value (jumpTarget pc offset)]
  | .trap => [.value ((offsetOf raw).zeroExtend 32)]
  | .syscall | .brk => []

/-- The rendering "for a given raw instruction word and PC", with the register values of `s`: what the core exposes to
the disassembly tool. None for a word of Unknown format. -/
def renderWord (s : State) (pc raw : Word) : Option TraceLine :=
  match decodeWord s.config raw with
  | .ok i => some ⟨pc, raw, mnemonic i, traceOperands s pc raw i⟩
  | .error _ => none

/-- The line the step at `s` emits when TRACE is on: one for each completed step, none for a step that stops. Whether
TRACE is on, and the budget, are the runner's: see `emitted` (Machine/Runner.lean). -/
def traceLine (s : State) : Option TraceLine :=
  match step s with
  | .next _ => renderWord s s.pc s.fetchWord
  | .fault _ => none
  | .refused _ => none

/-! ## The text of a line -/

/-- The hexadecimal digit of `n` < 16: `0` to `9`, then `a` to `f` or `A` to `F`. -/
def hexDigit (upper : Bool) (n : Nat) : Char :=
  if n < 10 then Char.ofNat (48 + n) else if upper then Char.ofNat (55 + n) else Char.ofNat (87 + n)

/-- How many hexadecimal digits a number needs: one at least. -/
def significantDigits (v : Word) : Nat := max 1 ((List.range 8).filter fun k => decide (16 ^ k ≤ v.toNat)).length

/-- A number in hexadecimal, most significant digit first, with leading zeros up to `width` digits. -/
def hexText (upper : Bool) (width : Nat) (v : Word) : String :=
  let n := max width (significantDigits v)
  String.ofList ((List.range n).map fun k => hexDigit upper (v.toNat / 16 ^ (n - 1 - k) % 16))

/-- "addresses and raw words are zero-padded 8-hex-digit". -/
def hex8 (part : TracePart) (v : Word) : String := hexText (Config.traceUpper part) 8 v

/-- The digits of a register value, immediate or target, in the open digit count and letter case. -/
def shownValue (part : TracePart) (v : Word) : String := hexText (Config.traceUpper part) (Config.traceWidth part v) v

/-- "`$regname [0xvalue]` for registers and `0xvalue` for immediates/targets". -/
def TraceOperand.text : TraceOperand → String
  | .register r v => "$" ++ regName r ++ " [0x" ++ shownValue .register v ++ "]"
  | .value v => "0x" ++ shownValue .value v

/-- Put a ranked operand before the first one of a higher rank. -/
def insertRanked (x : Nat × TraceOperand) : List (Nat × TraceOperand) → List (Nat × TraceOperand)
  | [] => [x]
  | y :: ys => if x.1 ≤ y.1 then x :: y :: ys else y :: insertRanked x ys

/-- The operands in the order of the text, which is open for each mnemonic. -/
def TraceLine.shownOperands (line : TraceLine) : List TraceOperand :=
  ((line.operands.zipIdx.map fun x => (Config.traceRank line.mnemonic x.2, x.1)).foldr insertRanked []).map (·.2)

/-- Parts from the `k`-th on, with the open separators before, between and after them. -/
def separated (mnemonic : String) (k : Nat) : List String → String
  | [] => Config.traceSeparator mnemonic k
  | part :: parts => Config.traceSeparator mnemonic k ++ (part ++ separated mnemonic (k + 1) parts)

/-- The text of a line: pc, raw word, mnemonic, operands, in the open TRACE_FORMAT (D23; log 12). -/
def TraceLine.text (line : TraceLine) : String :=
  separated line.mnemonic 0
    ([hex8 .pc line.pc, hex8 .raw line.raw, line.mnemonic] ++ line.shownOperands.map TraceOperand.text)

end Sys2Proof.Machine
end

