-- ==== Sys2Proof/Machine/Runner.lean ====
section
/-! DEFINITION. Machine/Runner.lean: the host's side of a run: the loader before it, the runner that bounds it and
receives its trace lines, and its end (70_reset_and_hazards.md R280 to R283; 10_state.md R31). TRACE and
MAX_INSTRUCTIONS are the launch parameters of 00_scope.md R5 the runner takes. -/

namespace Sys2Proof.Machine

/-- IMAGE: an ordered list of segments (start address, bytes) (R281). -/
abbrev Image := List (Word × List Byte)

/-- The segment does not run past address 0xFFFFFFFF (R281). -/
def segmentFits (segment : Word × List Byte) : Bool := decide (segment.1.toNat + segment.2.length ≤ 2 ^ 32)

/-- Write a segment's bytes at consecutive addresses (20_memory.md R70). -/
def loadSegment (s : State) (segment : Word × List Byte) : State :=
  { s with mem := Memory.setBytes s.config.memDefault s.mem segment.1.toNat segment.2 }

/-- Write the segments in list order, a later one over an earlier one (20_memory.md R70). -/
def loadImage (s : State) (image : Image) : State := image.foldl loadSegment s

/-- The state before the first step: construction, IMAGE, then pc at ENTRY (R280). An IMAGE that runs past the top is
refused (R281; log 15). -/
def launch (c : Config) (image : Image) (entry : Word) : Option State :=
  if image.all segmentFits then some (loadImage (State.resetWith c entry) image) else none

/-- The runner's next move under the budget `maxInstructions`: a step, or the end of the run (R283; 40_pipeline.md
R120). A refusal of the model is no end the hardware has, and is passed on (log 10). -/
def runnerStep (maxInstructions : Nat) (s : State) : Except Refusal State :=
  match s.status with
  | .running =>
    if s.stepsDone < maxInstructions then
      match step s with
      | .next t => .ok t
      | .fault f => .ok { s with status := .fatal f }
      | .refused q => .error q
    else .ok { s with status := .budgetReached }
  | .budgetReached => .ok s
  | .fatal _ => .ok s

/-- What the runner has of a run: the state, whose status holds the diagnostic at a fatal halt, and the trace lines
received so far, in order (R282). -/
structure Run where
  state : State
  lines : List TraceLine
deriving DecidableEq, Repr

/-- The trace lines of the runner's next move: the completed step's one line when TRACE is on, none when it is off, when
the budget is spent or when the step stops (40_pipeline.md R118). -/
def emitted (trace : Tracing) (maxInstructions : Nat) (s : State) : List TraceLine :=
  match trace with
  | .off => []
  | .on => if s.stepsDone < maxInstructions then (traceLine s).toList else []

/-- The runner's next move, and the lines it receives (R282). -/
def runnerMove (trace : Tracing) (maxInstructions : Nat) (r : Run) : Except Refusal Run :=
  match runnerStep maxInstructions r.state with
  | .ok t => .ok ⟨t, r.lines ++ emitted trace maxInstructions r.state⟩
  | .error q => .error q

/-- `n` moves of the runner. -/
def runFor (trace : Tracing) (maxInstructions : Nat) : Nat → Run → Except Refusal Run
  | 0, r => .ok r
  | n + 1, r =>
    match runnerMove trace maxInstructions r with
    | .ok q => runFor trace maxInstructions n q
    | .error q => .error q

/-- The run to its end (R283): one move for each step the budget leaves, and one for the end. -/
def runToEnd (trace : Tracing) (maxInstructions : Nat) (r : Run) : Except Refusal Run :=
  runFor trace maxInstructions (maxInstructions - r.state.stepsDone + 1) r

/-- Launch and run: every launch and configuration parameter of 00_scope.md R5. None where the loader refuses IMAGE. -/
def runProgram (trace : Tracing) (maxInstructions : Nat) (c : Config) (image : Image) (entry : Word) :
    Option (Except Refusal Run) :=
  (launch c image entry).map fun s => runToEnd trace maxInstructions ⟨s, []⟩

end Sys2Proof.Machine
end

