-- ==== Sys2Proof/Safety.lean ====
section
/-! DEFINITION. Safety.lean: the terms claims are made in: what a step may leave unchanged, the shapes of an
instruction's effect, and the invariant of the model. -/

namespace Sys2Proof.Machine

/-! ## What stays -/

/-- Every general register reads as before. -/
def SameRegs (s t : State) : Prop := ∀ k, t.readReg k = s.readReg k

/-- Every general register but x[r] reads as before. -/
def SameRegsBut (r : RegIdx) (s t : State) : Prop := ∀ k, k ≠ r → t.readReg k = s.readReg k

/-- HI and LO are as before. -/
def SameHiLo (s t : State) : Prop := t.hi = s.hi ∧ t.lo = s.lo

/-- Every byte of memory reads as before. -/
def SameMemory (s t : State) : Prop := ∀ a, t.readByte a = s.readByte a

/-- Every byte of memory outside the `n` bytes from address `a` on reads as before. -/
def SameMemoryOutside (a : Word) (n : Nat) (s t : State) : Prop :=
  ∀ b, (∀ k, k < n → b ≠ a + BitVec.ofNat 32 k) → t.readByte b = s.readByte b

/-- The configuration and the run-control state are as before. -/
def SameControl (s t : State) : Prop := t.config = s.config ∧ t.stepsDone = s.stepsDone ∧ t.status = s.status

/-! ## The shapes of an instruction's effect: each says that `exec` answers a next state, and all of what it holds -/

/-- What x[r] reads after `x[r] <- v` (10_state.md R21). -/
def heldIn (r : RegIdx) (v : Word) : Word := if r = 0#5 then 0x00000000#32 else v

/-- `i` completes with `x[r] <- v; pc <- pc + 4` and changes nothing else. -/
def SetsRegister (i : Instr) (s : State) (r : RegIdx) (v : Word) : Prop :=
  ∃ t, exec i s = .next t ∧ t.readReg r = heldIn r v ∧ SameRegsBut r s t ∧ SameHiLo s t ∧ SameMemory s t ∧
    t.pc = s.pc + 4#32 ∧ SameControl s t

/-- `i` completes with `HI <- hi; LO <- lo; pc <- pc + 4` and changes nothing else. -/
def SetsHiLo (i : Instr) (s : State) (hi lo : Word) : Prop :=
  ∃ t, exec i s = .next t ∧ t.hi = hi ∧ t.lo = lo ∧ SameRegs s t ∧ SameMemory s t ∧
    t.pc = s.pc + 4#32 ∧ SameControl s t

/-- `i` completes with `pc <- target` and changes nothing else. -/
def GoesTo (i : Instr) (s : State) (target : Word) : Prop :=
  ∃ t, exec i s = .next t ∧ t.pc = target ∧ SameRegs s t ∧ SameHiLo s t ∧ SameMemory s t ∧ SameControl s t

/-- `i` completes with `x[31] <- pc + 4; pc <- target` and changes nothing else. -/
def LinksAndGoesTo (i : Instr) (s : State) (target : Word) : Prop :=
  ∃ t, exec i s = .next t ∧ t.pc = target ∧ t.readReg 31#5 = s.pc + 4#32 ∧ SameRegsBut 31#5 s t ∧
    SameHiLo s t ∧ SameMemory s t ∧ SameControl s t

/-- `i` completes, storing `bytes` at the ascending addresses from `a` on, with `pc <- pc + 4`, and changes nothing
else. -/
def StoresBytes (i : Instr) (s : State) (a : Word) (bytes : List Byte) : Prop :=
  ∃ t, exec i s = .next t ∧
    (∀ k b, bytes[k]? = some b → t.readByte (a + BitVec.ofNat 32 k) = b) ∧
    SameMemoryOutside a bytes.length s t ∧ SameRegs s t ∧ SameHiLo s t ∧ t.pc = s.pc + 4#32 ∧ SameControl s t

/-- The unsigned value of `bytes` at ascending addresses: the first is the least significant under little, the most
significant under big (20_memory.md R53, R54). -/
def bytesValue (o : ByteOrder) (bytes : List Byte) : Nat :=
  match o with
  | .little => bytes.foldr (fun b acc => b.toNat + 256 * acc) 0
  | .big    => bytes.foldl (fun acc b => 256 * acc + b.toNat) 0

/-- Both results stop alike, with the same report, or both complete, in states that `R` relates. -/
def SameOutcome (R : State → State → Prop) : Result → Result → Prop
  | .next t, .next u => R t u
  | .fault f, .fault g => f = g
  | .refused p, .refused q => p = q
  | .next _, .fault _ | .next _, .refused _ | .fault _, .next _ | .fault _, .refused _ => False
  | .refused _, .next _ | .refused _, .fault _ => False

/-! ## Encodings -/

/-- Every word that matches `value` under `mask` decodes, in every configuration, to the instruction `mk` reads from
it (the Encoding line of an instruction's rule). -/
def DecodesTo (mask value : Word) (mk : Word → Instr) : Prop :=
  ∀ c w, w &&& mask = value → decodeWord c w = .ok (mk w)

/-! ## What an instruction may write -/

/-- The general register an instruction writes (the table of 40_pipeline.md R116). -/
def destination : Instr → Option RegIdx
  | .add rd _ _ | .addu rd _ _ | .sub rd _ _ | .subu rd _ _ | .and rd _ _ | .or rd _ _ | .xor rd _ _ => some rd
  | .nor rd _ _ | .slt rd _ _ | .sltu rd _ _ | .sll rd _ _ | .srl rd _ _ | .sra rd _ _ => some rd
  | .sllv rd _ _ | .srlv rd _ _ | .srav rd _ _ | .mfhi rd | .mflo rd => some rd
  | .addi rt _ _ | .addiu rt _ _ | .slti rt _ _ | .sltiu rt _ _ | .andi rt _ _ | .ori rt _ _ => some rt
  | .xori rt _ _ | .lui rt _ | .lb rt _ _ | .lh rt _ _ | .lw rt _ _ | .lbu rt _ _ | .lhu rt _ _ => some rt
  | .jal _ | .jalr _ _ => some 31#5
  | .mult _ _ | .multu _ _ | .div _ _ | .divu _ _ | .mthi _ | .mtlo _ => none
  | .beq _ _ _ | .bne _ _ _ | .blez _ _ | .bgtz _ _ | .j _ | .jr _ => none
  | .sb _ _ _ | .sh _ _ _ | .sw _ _ _ | .syscall | .brk | .trap => none

/-- The general registers an instruction reads as operands (the access table of 10_state.md R23). -/
def sources : Instr → List RegIdx
  | .add _ rs rt | .addu _ rs rt | .sub _ rs rt | .subu _ rs rt | .and _ rs rt | .or _ rs rt => [rs, rt]
  | .xor _ rs rt | .nor _ rs rt | .slt _ rs rt | .sltu _ rs rt => [rs, rt]
  | .sllv _ rt rs | .srlv _ rt rs | .srav _ rt rs => [rs, rt]
  | .sll _ rt _ | .srl _ rt _ | .sra _ rt _ => [rt]
  | .addi _ rs _ | .addiu _ rs _ | .slti _ rs _ | .sltiu _ rs _ | .andi _ rs _ | .ori _ rs _ | .xori _ rs _ => [rs]
  | .lb _ _ rs | .lh _ _ rs | .lw _ _ rs | .lbu _ _ rs | .lhu _ _ rs => [rs]
  | .mult rs rt | .multu rs rt | .div rs rt | .divu rs rt | .beq rs rt _ | .bne rs rt _ => [rs, rt]
  | .sb rt _ rs | .sh rt _ rs | .sw rt _ rs => [rs, rt]
  | .blez rs _ | .bgtz rs _ | .jr rs | .mthi rs | .mtlo rs | .jalr _ rs => [rs]
  | .lui _ _ | .mfhi _ | .mflo _ | .j _ | .jal _ | .syscall | .brk | .trap => []

/-- The bytes a store writes: its base register, displacement and width (20_memory.md R56, R71). -/
def storeFootprint : Instr → Option (RegIdx × BitVec 16 × Nat)
  | .sb _ imm rs => some (rs, imm, 1)
  | .sh _ imm rs => some (rs, imm, 2)
  | .sw _ imm rs => some (rs, imm, 4)
  | .add _ _ _ | .addu _ _ _ | .sub _ _ _ | .subu _ _ _ | .addi _ _ _ | .addiu _ _ _ => none
  | .mult _ _ | .multu _ _ | .div _ _ | .divu _ _ | .mfhi _ | .mthi _ | .mflo _ | .mtlo _ => none
  | .sll _ _ _ | .srl _ _ _ | .sra _ _ _ | .sllv _ _ _ | .srlv _ _ _ | .srav _ _ _ => none
  | .lui _ _ | .slt _ _ _ | .sltu _ _ _ | .slti _ _ _ | .sltiu _ _ _ => none
  | .and _ _ _ | .or _ _ _ | .xor _ _ _ | .nor _ _ _ | .andi _ _ _ | .ori _ _ _ | .xori _ _ _ => none
  | .beq _ _ _ | .bne _ _ _ | .blez _ _ | .bgtz _ _ | .j _ | .jal _ | .jr _ | .jalr _ _ => none
  | .lb _ _ _ | .lh _ _ _ | .lw _ _ _ | .lbu _ _ _ | .lhu _ _ _ | .syscall | .brk | .trap => none

/-- The eight control-transfer instructions (10_state.md R26). -/
def isTransfer : Instr → Bool
  | .beq _ _ _ | .bne _ _ _ | .blez _ _ | .bgtz _ _ | .j _ | .jal _ | .jr _ | .jalr _ _ => true
  | .add _ _ _ | .addu _ _ _ | .sub _ _ _ | .subu _ _ _ | .addi _ _ _ | .addiu _ _ _ => false
  | .mult _ _ | .multu _ _ | .div _ _ | .divu _ _ | .mfhi _ | .mthi _ | .mflo _ | .mtlo _ => false
  | .sll _ _ _ | .srl _ _ _ | .sra _ _ _ | .sllv _ _ _ | .srlv _ _ _ | .srav _ _ _ => false
  | .lui _ _ | .slt _ _ _ | .sltu _ _ _ | .slti _ _ _ | .sltiu _ _ _ => false
  | .and _ _ _ | .or _ _ _ | .xor _ _ _ | .nor _ _ _ | .andi _ _ _ | .ori _ _ _ | .xori _ _ _ => false
  | .lb _ _ _ | .lh _ _ _ | .lw _ _ _ | .lbu _ _ _ | .lhu _ _ _ | .sb _ _ _ | .sh _ _ _ | .sw _ _ _ => false
  | .syscall | .brk | .trap => false

/-- The instructions that jump to a register's value: the only ones that can make a misaligned pc
(46_branch_jump.md R209). -/
def jumpsToRegister : Instr → Bool
  | .jr _ | .jalr _ _ => true
  | .beq _ _ _ | .bne _ _ _ | .blez _ _ | .bgtz _ _ | .j _ | .jal _ => false
  | .add _ _ _ | .addu _ _ _ | .sub _ _ _ | .subu _ _ _ | .addi _ _ _ | .addiu _ _ _ => false
  | .mult _ _ | .multu _ _ | .div _ _ | .divu _ _ | .mfhi _ | .mthi _ | .mflo _ | .mtlo _ => false
  | .sll _ _ _ | .srl _ _ _ | .sra _ _ _ | .sllv _ _ _ | .srlv _ _ _ | .srav _ _ _ => false
  | .lui _ _ | .slt _ _ _ | .sltu _ _ _ | .slti _ _ _ | .sltiu _ _ _ => false
  | .and _ _ _ | .or _ _ _ | .xor _ _ _ | .nor _ _ _ | .andi _ _ _ | .ori _ _ _ | .xori _ _ _ => false
  | .lb _ _ _ | .lh _ _ _ | .lw _ _ _ | .lbu _ _ _ | .lhu _ _ _ | .sb _ _ _ | .sh _ _ _ | .sw _ _ _ => false
  | .syscall | .brk | .trap => false

/-! ## The invariant -/

/-- What every step keeps: memory is in canonical form for the configuration's default byte, the slot of the hardwired
register is never written, and TRAP_OPCODE collides with no other opcode. -/
structure State.Inv (s : State) : Prop where
  memory : Memory.wf s.config.memDefault s.mem = true
  zero   : s.regs[0] = 0x00000000#32
  config : s.config.wellFormed = true

/-- A configuration under which every instruction has a meaning: the two parameters that let the model refuse stand at
the spec's defaults (20_memory.md R59, 46_branch_jump.md R207). -/
def NoRefusals (c : Config) : Prop := c.halfAlign = .fatal ∧ c.jalrRd = .link31

end Sys2Proof.Machine
end

