-- ==== Sys2Proof/Certificates/Slice0/Obligations.lean ====
section
/-! DEFINITION. Certificates/Slice0/Obligations.lean: the statements for the provers. Where a statement quantifies
over states it quantifies over configurations too (BYTE_ORDER, MEM_DEFAULT, HALF_ALIGN, DIV_OVERFLOW, JALR_RD,
TRAP_OPCODE), since State carries the configuration. The opcode and function-code numbers (92_eei_decisions.md D9) and
the roles of the operand fields (D16) and the branch conditions (D17) stand in the spec's numbered rules as the spec's
own decisions (log 6, log 14); statements that rest on another decision of the spec say so. -/

open Sys2Proof Sys2Proof.Machine

/-! ## The instructions: encoding, result, frame, completion -/

/-- 41_arithmetic.md R140 to R145: the six additions and subtractions wrap modulo 2^32, write one register, complete
in every state, and have the encodings of their rules. -/
def Obligations.AddAndSubtractWrapAndComplete : Prop :=
  (DecodesTo 0xFC00003F#32 0x00000020#32 (fun w => .add (rdOf w) (rsOf w) (rtOf w)) ∧
    DecodesTo 0xFC00003F#32 0x00000021#32 (fun w => .addu (rdOf w) (rsOf w) (rtOf w)) ∧
    DecodesTo 0xFC00003F#32 0x00000022#32 (fun w => .sub (rdOf w) (rsOf w) (rtOf w)) ∧
    DecodesTo 0xFC00003F#32 0x00000023#32 (fun w => .subu (rdOf w) (rsOf w) (rtOf w)) ∧
    DecodesTo 0xFC000000#32 0x20000000#32 (fun w => .addi (rtOf w) (rsOf w) (immOf w)) ∧
    DecodesTo 0xFC000000#32 0x24000000#32 (fun w => .addiu (rtOf w) (rsOf w) (immOf w))) ∧
  ∀ (s : State) (rd rs rt : RegIdx) (imm : BitVec 16),
    let vs := s.readReg rs
    let vt := s.readReg rt
    SetsRegister (.add rd rs rt) s rd (BitVec.ofNat 32 (vs.toNat + vt.toNat)) ∧
    SetsRegister (.addu rd rs rt) s rd (BitVec.ofNat 32 (vs.toNat + vt.toNat)) ∧
    SetsRegister (.sub rd rs rt) s rd (BitVec.ofInt 32 ((vs.toNat : Int) - vt.toNat)) ∧
    SetsRegister (.subu rd rs rt) s rd (BitVec.ofInt 32 ((vs.toNat : Int) - vt.toNat)) ∧
    SetsRegister (.addi rt rs imm) s rt (BitVec.ofInt 32 (vs.toNat + imm.toInt)) ∧
    SetsRegister (.addiu rt rs imm) s rt (BitVec.ofInt 32 (vs.toNat + imm.toInt))

/-- 42_muldiv_hilo.md R150, R151: the exact 64-bit product, its upper half in HI and its lower half in LO. -/
def Obligations.MultiplySplitsTheExactProduct : Prop :=
  (DecodesTo 0xFC00003F#32 0x00000018#32 (fun w => .mult (rsOf w) (rtOf w)) ∧
    DecodesTo 0xFC00003F#32 0x00000019#32 (fun w => .multu (rsOf w) (rtOf w))) ∧
  ∀ (s : State) (rs rt : RegIdx),
    let signed := BitVec.ofInt 64 ((s.readReg rs).toInt * (s.readReg rt).toInt)
    let unsigned := BitVec.ofNat 64 ((s.readReg rs).toNat * (s.readReg rt).toNat)
    SetsHiLo (.mult rs rt) s (signed.extractLsb' 32 32) (signed.extractLsb' 0 32) ∧
    SetsHiLo (.multu rs rt) s (unsigned.extractLsb' 32 32) (unsigned.extractLsb' 0 32)

/-- 42_muldiv_hilo.md R152, with the rounding of D11 and the overflow case of D12 (the spec's decisions; log 4, log
14): `div` in every case: a zero divisor and (by the parameter) the overflow pair are fatal with no effect; otherwise
the quotient q of `s(vs)` by `s(vt)` rounded toward zero goes to LO and `s(vs) - q * s(vt)` to HI. -/
def Obligations.SignedDivideCompletesOrHalts : Prop :=
  DecodesTo 0xFC00003F#32 0x0000001A#32 (fun w => .div (rsOf w) (rtOf w)) ∧
  ∀ (s : State) (rs rt : RegIdx),
    let vs := s.readReg rs
    let vt := s.readReg rt
    (vt = 0x00000000#32 → exec (.div rs rt) s = .fault (.divideByZero s.pc s.fetchWord (.div rs rt))) ∧
    (vs = 0x80000000#32 → vt = 0xFFFFFFFF#32 →
      (s.config.divOverflow = .fatal →
        exec (.div rs rt) s = .fault (.divideOverflow s.pc s.fetchWord (.div rs rt))) ∧
      (s.config.divOverflow = .wrap → SetsHiLo (.div rs rt) s 0x00000000#32 0x80000000#32)) ∧
    (vt ≠ 0x00000000#32 → ¬(vs = 0x80000000#32 ∧ vt = 0xFFFFFFFF#32) →
      ∃ q : Int, q * vt.toInt.sign = vs.toInt.sign * (vs.toInt.natAbs / vt.toInt.natAbs : Nat) ∧
        SetsHiLo (.div rs rt) s (BitVec.ofInt 32 (vs.toInt - q * vt.toInt)) (BitVec.ofInt 32 q))

/-- 42_muldiv_hilo.md R153: `divu` in every case. -/
def Obligations.UnsignedDivideCompletesOrHalts : Prop :=
  DecodesTo 0xFC00003F#32 0x0000001B#32 (fun w => .divu (rsOf w) (rtOf w)) ∧
  ∀ (s : State) (rs rt : RegIdx),
    let vs := s.readReg rs
    let vt := s.readReg rt
    (vt = 0x00000000#32 → exec (.divu rs rt) s = .fault (.divideByZero s.pc s.fetchWord (.divu rs rt))) ∧
    (vt ≠ 0x00000000#32 →
      SetsHiLo (.divu rs rt) s (BitVec.ofNat 32 (vs.toNat % vt.toNat)) (BitVec.ofNat 32 (vs.toNat / vt.toNat)))

/-- 42_muldiv_hilo.md R158, multiply: read back from HI and LO, the product is exact; it fits in 32 bits exactly when
every bit of HI equals LO[31] (`mult`), or HI = 0 (`multu`); and both are commutative. -/
def Obligations.MultiplyLaws : Prop :=
  ∀ (s : State) (rs rt : RegIdx),
    let vs := s.readReg rs
    let vt := s.readReg rt
    (∃ t, exec (.mult rs rt) s = .next t ∧ (t.hi ++ t.lo : BitVec 64).toInt = vs.toInt * vt.toInt ∧
      (t.hi = (if t.lo.msb then 0xFFFFFFFF#32 else 0x00000000#32) ↔
        -2 ^ 31 ≤ vs.toInt * vt.toInt ∧ vs.toInt * vt.toInt < 2 ^ 31)) ∧
    (∃ t, exec (.multu rs rt) s = .next t ∧ (t.hi ++ t.lo : BitVec 64).toNat = vs.toNat * vt.toNat ∧
      (t.hi = 0x00000000#32 ↔ vs.toNat * vt.toNat < 2 ^ 32)) ∧
    exec (.mult rs rt) s = exec (.mult rt rs) s ∧
    exec (.multu rs rt) s = exec (.multu rt rs) s

/-- 42_muldiv_hilo.md R158, divide: with q in LO and r in HI, `a = q * b + r` in integers (the rounding of `div` is
the spec's decision D11); for `div` |r| < |b| and r is zero or has the sign of a; for `divu` r < b. -/
def Obligations.DivideLaws : Prop :=
  ∀ (s : State) (rs rt : RegIdx),
    let vs := s.readReg rs
    let vt := s.readReg rt
    (vt ≠ 0x00000000#32 → ¬(vs = 0x80000000#32 ∧ vt = 0xFFFFFFFF#32) →
      ∃ t, exec (.div rs rt) s = .next t ∧ vs.toInt = t.lo.toInt * vt.toInt + t.hi.toInt ∧
        t.hi.toInt.natAbs < vt.toInt.natAbs ∧ (t.hi.toInt = 0 ∨ (t.hi.toInt < 0 ↔ vs.toInt < 0))) ∧
    (vt ≠ 0x00000000#32 →
      ∃ t, exec (.divu rs rt) s = .next t ∧ vs.toNat = t.lo.toNat * vt.toNat + t.hi.toNat ∧
        t.hi.toNat < vt.toNat)

/-- 42_muldiv_hilo.md R154 to R157: the four moves between HI, LO and the general registers. -/
def Obligations.HiLoMovesCopyAndComplete : Prop :=
  (DecodesTo 0xFC00003F#32 0x00000010#32 (fun w => .mfhi (rdOf w)) ∧
    DecodesTo 0xFC00003F#32 0x00000011#32 (fun w => .mthi (rsOf w)) ∧
    DecodesTo 0xFC00003F#32 0x00000012#32 (fun w => .mflo (rdOf w)) ∧
    DecodesTo 0xFC00003F#32 0x00000013#32 (fun w => .mtlo (rsOf w))) ∧
  ∀ (s : State) (r : RegIdx),
    SetsRegister (.mfhi r) s r s.hi ∧
    SetsRegister (.mflo r) s r s.lo ∧
    SetsHiLo (.mthi r) s (s.readReg r) s.lo ∧
    SetsHiLo (.mtlo r) s s.hi (s.readReg r)

/-- 43_shift.md R170 to R175: a left shift multiplies by 2^n modulo 2^32, a logical right shift is the floor of the
unsigned quotient by 2^n, an arithmetic one the floor of the signed quotient; the amount is shamt or the low 5 bits of
x[rs]. -/
def Obligations.ShiftsScaleByPowersOfTwo : Prop :=
  (DecodesTo 0xFC00003F#32 0x00000000#32 (fun w => .sll (rdOf w) (rtOf w) (shamtOf w)) ∧
    DecodesTo 0xFC00003F#32 0x00000002#32 (fun w => .srl (rdOf w) (rtOf w) (shamtOf w)) ∧
    DecodesTo 0xFC00003F#32 0x00000003#32 (fun w => .sra (rdOf w) (rtOf w) (shamtOf w)) ∧
    DecodesTo 0xFC00003F#32 0x00000004#32 (fun w => .sllv (rdOf w) (rtOf w) (rsOf w)) ∧
    DecodesTo 0xFC00003F#32 0x00000006#32 (fun w => .srlv (rdOf w) (rtOf w) (rsOf w)) ∧
    DecodesTo 0xFC00003F#32 0x00000007#32 (fun w => .srav (rdOf w) (rtOf w) (rsOf w))) ∧
  ∀ (s : State) (rd rt rs : RegIdx) (shamt : BitVec 5),
    let vt := s.readReg rt
    let n := (s.readReg rs).toNat % 32
    SetsRegister (.sll rd rt shamt) s rd (BitVec.ofNat 32 (vt.toNat * 2 ^ shamt.toNat)) ∧
    SetsRegister (.srl rd rt shamt) s rd (BitVec.ofNat 32 (vt.toNat / 2 ^ shamt.toNat)) ∧
    SetsRegister (.sra rd rt shamt) s rd (BitVec.ofInt 32 (vt.toInt / 2 ^ shamt.toNat)) ∧
    SetsRegister (.sllv rd rt rs) s rd (BitVec.ofNat 32 (vt.toNat * 2 ^ n)) ∧
    SetsRegister (.srlv rd rt rs) s rd (BitVec.ofNat 32 (vt.toNat / 2 ^ n)) ∧
    SetsRegister (.srav rd rt rs) s rd (BitVec.ofInt 32 (vt.toInt / 2 ^ n))

/-- 44_lui_compare.md R180 to R184: `lui` and the four comparisons; both comparison immediates are sign-extended, the
one of `sltiu` is then read as unsigned. -/
def Obligations.LuiAndComparesWriteTheirResult : Prop :=
  (DecodesTo 0xFC000000#32 0x3C000000#32 (fun w => .lui (rtOf w) (immOf w)) ∧
    DecodesTo 0xFC00003F#32 0x0000002A#32 (fun w => .slt (rdOf w) (rsOf w) (rtOf w)) ∧
    DecodesTo 0xFC00003F#32 0x0000002B#32 (fun w => .sltu (rdOf w) (rsOf w) (rtOf w)) ∧
    DecodesTo 0xFC000000#32 0x28000000#32 (fun w => .slti (rtOf w) (rsOf w) (immOf w)) ∧
    DecodesTo 0xFC000000#32 0x2C000000#32 (fun w => .sltiu (rtOf w) (rsOf w) (immOf w))) ∧
  ∀ (s : State) (rd rs rt : RegIdx) (imm : BitVec 16),
    let vs := s.readReg rs
    let vt := s.readReg rt
    SetsRegister (.lui rt imm) s rt (BitVec.ofNat 32 (imm.toNat * 2 ^ 16)) ∧
    SetsRegister (.slt rd rs rt) s rd (if vs.toInt < vt.toInt then 0x00000001#32 else 0x00000000#32) ∧
    SetsRegister (.sltu rd rs rt) s rd (if vs.toNat < vt.toNat then 0x00000001#32 else 0x00000000#32) ∧
    SetsRegister (.slti rt rs imm) s rt (if vs.toInt < imm.toInt then 0x00000001#32 else 0x00000000#32) ∧
    SetsRegister (.sltiu rt rs imm) s rt
      (if (vs.toNat : Int) < (if imm.toInt < 0 then imm.toInt + 2 ^ 32 else imm.toInt) then 0x00000001#32
        else 0x00000000#32)

/-- 45_bitwise.md R190 to R196, bit by bit: the logical immediates have zeros in bits 31:16. -/
def Obligations.BitwiseLogicActsBitByBit : Prop :=
  (DecodesTo 0xFC00003F#32 0x00000024#32 (fun w => .and (rdOf w) (rsOf w) (rtOf w)) ∧
    DecodesTo 0xFC00003F#32 0x00000025#32 (fun w => .or (rdOf w) (rsOf w) (rtOf w)) ∧
    DecodesTo 0xFC00003F#32 0x00000026#32 (fun w => .xor (rdOf w) (rsOf w) (rtOf w)) ∧
    DecodesTo 0xFC00003F#32 0x00000027#32 (fun w => .nor (rdOf w) (rsOf w) (rtOf w)) ∧
    DecodesTo 0xFC000000#32 0x30000000#32 (fun w => .andi (rtOf w) (rsOf w) (immOf w)) ∧
    DecodesTo 0xFC000000#32 0x34000000#32 (fun w => .ori (rtOf w) (rsOf w) (immOf w)) ∧
    DecodesTo 0xFC000000#32 0x38000000#32 (fun w => .xori (rtOf w) (rsOf w) (immOf w))) ∧
  ∀ (s : State) (rd rs rt : RegIdx) (imm : BitVec 16),
    let vs := s.readReg rs
    let vt := s.readReg rt
    let bit := fun k : Nat => decide (k < 16) && imm.getLsbD k
    (∃ v, SetsRegister (.and rd rs rt) s rd v ∧ ∀ k < 32, v.getLsbD k = (vs.getLsbD k && vt.getLsbD k)) ∧
    (∃ v, SetsRegister (.or rd rs rt) s rd v ∧ ∀ k < 32, v.getLsbD k = (vs.getLsbD k || vt.getLsbD k)) ∧
    (∃ v, SetsRegister (.xor rd rs rt) s rd v ∧ ∀ k < 32, v.getLsbD k = (vs.getLsbD k ^^ vt.getLsbD k)) ∧
    (∃ v, SetsRegister (.nor rd rs rt) s rd v ∧ ∀ k < 32, v.getLsbD k = !(vs.getLsbD k || vt.getLsbD k)) ∧
    (∃ v, SetsRegister (.andi rt rs imm) s rt v ∧ ∀ k < 32, v.getLsbD k = (vs.getLsbD k && bit k)) ∧
    (∃ v, SetsRegister (.ori rt rs imm) s rt v ∧ ∀ k < 32, v.getLsbD k = (vs.getLsbD k || bit k)) ∧
    (∃ v, SetsRegister (.xori rt rs imm) s rt v ∧ ∀ k < 32, v.getLsbD k = (vs.getLsbD k ^^ bit k))

/-- 46_branch_jump.md R200 to R203: the four branches go to `trunc_32(u(pc) + 4 + 4 * s(imm))` when their condition
holds and to `pc + 4` otherwise, write no register, and complete in every state; the target is a multiple of 4 when pc
is. -/
def Obligations.BranchesGoToTargetOrFallThrough : Prop :=
  (DecodesTo 0xFC000000#32 0x10000000#32 (fun w => .beq (rsOf w) (rtOf w) (immOf w)) ∧
    DecodesTo 0xFC000000#32 0x14000000#32 (fun w => .bne (rsOf w) (rtOf w) (immOf w)) ∧
    DecodesTo 0xFC000000#32 0x18000000#32 (fun w => .blez (rsOf w) (immOf w)) ∧
    DecodesTo 0xFC000000#32 0x1C000000#32 (fun w => .bgtz (rsOf w) (immOf w))) ∧
  ∀ (s : State) (rs rt : RegIdx) (imm : BitVec 16),
    let vs := s.readReg rs
    let vt := s.readReg rt
    let target := BitVec.ofInt 32 (s.pc.toNat + 4 + 4 * imm.toInt)
    GoesTo (.beq rs rt imm) s (if vs = vt then target else s.pc + 4#32) ∧
    GoesTo (.bne rs rt imm) s (if vs ≠ vt then target else s.pc + 4#32) ∧
    GoesTo (.blez rs imm) s (if vs.toInt ≤ 0 then target else s.pc + 4#32) ∧
    GoesTo (.bgtz rs imm) s (if 0 < vs.toInt then target else s.pc + 4#32) ∧
    (s.pc.toNat % 4 = 0 → target.toNat % 4 = 0)

/-- 46_branch_jump.md R204, R205: `j` and `jal` go to the region bits of pc + 4 above the offset and two zero bits, a
multiple of 4; `jal` links pc + 4 in x[31]. -/
def Obligations.JumpsGoToTheirTargetAndLink : Prop :=
  (DecodesTo 0xFC000000#32 0x08000000#32 (fun w => .j (offsetOf w)) ∧
    DecodesTo 0xFC000000#32 0x0C000000#32 (fun w => .jal (offsetOf w))) ∧
  ∀ (s : State) (offset : BitVec 26),
    let target := ((s.pc + 4#32) &&& 0xF0000000#32) ||| (offset.zeroExtend 32 <<< 2)
    GoesTo (.j offset) s target ∧
    LinksAndGoesTo (.jal offset) s target ∧
    target.toNat % 4 = 0

/-- 46_branch_jump.md R206, R209: `jr` goes to x[rs] and completes, aligned or not; from a misaligned target the next
step is the fatal halt of Fetch (the spec's inference from 40_pipeline.md R111 and R117). -/
def Obligations.JumpRegisterGoesToTheSourceValue : Prop :=
  DecodesTo 0xFC00003F#32 0x00000008#32 (fun w => .jr (rsOf w)) ∧
  ∀ (s : State) (rs : RegIdx),
    GoesTo (.jr rs) s (s.readReg rs) ∧
    (s.status = .running → (s.readReg rs).toNat % 4 ≠ 0 →
      ∃ t, exec (.jr rs) s = .next t ∧ step t = .fault (.fetchMisaligned (s.readReg rs)))

/-- 46_branch_jump.md R207: `jalr` links pc + 4 in x[31] whatever its rd (the spec's decision D6), and goes to the
x[rs] of before the link; under JALR_RD = refuse an rd other than 31 is given no meaning. -/
def Obligations.JalrLinksInRegister31 : Prop :=
  DecodesTo 0xFC00003F#32 0x00000009#32 (fun w => .jalr (rdOf w) (rsOf w)) ∧
  ∀ (s : State) (rd rs : RegIdx),
    (s.config.jalrRd = .link31 → LinksAndGoesTo (.jalr rd rs) s (s.readReg rs)) ∧
    (s.config.jalrRd = .refuse → rd = 31#5 → LinksAndGoesTo (.jalr rd rs) s (s.readReg rs)) ∧
    (s.config.jalrRd = .refuse → rd ≠ 31#5 → exec (.jalr rd rs) s = .refused (.jalrLinkNot31 rd))

/-- 47_load_store.md R221, R224, R226: byte loads and the byte store complete at every address. -/
def Obligations.ByteAccessesCompleteEverywhere : Prop :=
  (DecodesTo 0xFC000000#32 0x80000000#32 (fun w => .lb (rtOf w) (immOf w) (rsOf w)) ∧
    DecodesTo 0xFC000000#32 0x90000000#32 (fun w => .lbu (rtOf w) (immOf w) (rsOf w)) ∧
    DecodesTo 0xFC000000#32 0xA0000000#32 (fun w => .sb (rtOf w) (immOf w) (rsOf w))) ∧
  ∀ (s : State) (rt rs : RegIdx) (imm : BitVec 16),
    let a := BitVec.ofInt 32 ((s.readReg rs).toNat + imm.toInt)
    SetsRegister (.lb rt imm rs) s rt (BitVec.ofInt 32 (s.readByte a).toInt) ∧
    SetsRegister (.lbu rt imm rs) s rt (BitVec.ofNat 32 (s.readByte a).toNat) ∧
    StoresBytes (.sb rt imm rs) s a [BitVec.ofNat 8 (s.readReg rt).toNat]

/-- 47_load_store.md R222, R225, R227 with 20_memory.md R59 (the spec's decisions D3 and D24; log 3): halfword
accesses at an even address, and at an odd one under each instance of HALF_ALIGN, in the configuration's byte order.
-/
def Obligations.HalfwordAccessesCompleteOrHalt : Prop :=
  (DecodesTo 0xFC000000#32 0x84000000#32 (fun w => .lh (rtOf w) (immOf w) (rsOf w)) ∧
    DecodesTo 0xFC000000#32 0x94000000#32 (fun w => .lhu (rtOf w) (immOf w) (rsOf w)) ∧
    DecodesTo 0xFC000000#32 0xA4000000#32 (fun w => .sh (rtOf w) (immOf w) (rsOf w))) ∧
  ∀ (s : State) (rt rs : RegIdx) (imm : BitVec 16),
    let a := BitVec.ofInt 32 ((s.readReg rs).toNat + imm.toInt)
    let h := bytesValue s.config.byteOrder [s.readByte a, s.readByte (a + 1#32)]
    let v := (s.readReg rt).toNat
    let stored : List Byte :=
      match s.config.byteOrder with
      | .little => [BitVec.ofNat 8 v, BitVec.ofNat 8 (v / 2 ^ 8)]
      | .big => [BitVec.ofNat 8 (v / 2 ^ 8), BitVec.ofNat 8 v]
    (a.toNat % 2 = 0 ∨ s.config.halfAlign = .permit ∧ a ≠ 0xFFFFFFFF#32 →
      SetsRegister (.lh rt imm rs) s rt (BitVec.ofInt 32 (BitVec.ofNat 16 h).toInt) ∧
      SetsRegister (.lhu rt imm rs) s rt (BitVec.ofNat 32 h) ∧
      StoresBytes (.sh rt imm rs) s a stored) ∧
    (a.toNat % 2 = 1 → s.config.halfAlign = .fatal →
      exec (.lh rt imm rs) s = .fault (.dataMisaligned a s.pc s.fetchWord (.lh rt imm rs)) ∧
      exec (.lhu rt imm rs) s = .fault (.dataMisaligned a s.pc s.fetchWord (.lhu rt imm rs)) ∧
      exec (.sh rt imm rs) s = .fault (.dataMisaligned a s.pc s.fetchWord (.sh rt imm rs))) ∧
    (a = 0xFFFFFFFF#32 → s.config.halfAlign = .permit →
      exec (.lh rt imm rs) s = .refused (.accessPastTop a) ∧
      exec (.lhu rt imm rs) s = .refused (.accessPastTop a) ∧
      exec (.sh rt imm rs) s = .refused (.accessPastTop a))

/-- 47_load_store.md R223, R228 with 20_memory.md R58: word accesses at a multiple of 4, in the configuration's byte
order, and the fatal halt at any other address. -/
def Obligations.WordAccessesCompleteOrHalt : Prop :=
  (DecodesTo 0xFC000000#32 0x8C000000#32 (fun w => .lw (rtOf w) (immOf w) (rsOf w)) ∧
    DecodesTo 0xFC000000#32 0xAC000000#32 (fun w => .sw (rtOf w) (immOf w) (rsOf w))) ∧
  ∀ (s : State) (rt rs : RegIdx) (imm : BitVec 16),
    let a := BitVec.ofInt 32 ((s.readReg rs).toNat + imm.toInt)
    let w := bytesValue s.config.byteOrder
      [s.readByte a, s.readByte (a + 1#32), s.readByte (a + 2#32), s.readByte (a + 3#32)]
    let v := (s.readReg rt).toNat
    let stored : List Byte :=
      match s.config.byteOrder with
      | .little => [BitVec.ofNat 8 v, BitVec.ofNat 8 (v / 2 ^ 8), BitVec.ofNat 8 (v / 2 ^ 16), BitVec.ofNat 8 (v / 2 ^ 24)]
      | .big => [BitVec.ofNat 8 (v / 2 ^ 24), BitVec.ofNat 8 (v / 2 ^ 16), BitVec.ofNat 8 (v / 2 ^ 8), BitVec.ofNat 8 v]
    (a.toNat % 4 = 0 →
      SetsRegister (.lw rt imm rs) s rt (BitVec.ofNat 32 w) ∧ StoresBytes (.sw rt imm rs) s a stored) ∧
    (a.toNat % 4 ≠ 0 →
      exec (.lw rt imm rs) s = .fault (.dataMisaligned a s.pc s.fetchWord (.lw rt imm rs)) ∧
      exec (.sw rt imm rs) s = .fault (.dataMisaligned a s.pc s.fetchWord (.sw rt imm rs)))

/-- 48_special.md R240 to R242 (the spec's decisions D22 and, for the encoding of `trap`, D10; log 6, log 14):
`syscall`, `break` and `trap` change nothing but pc, whatever their ignored bits; the opcode of `trap` is the
parameter TRAP_OPCODE. -/
def Obligations.SpecialInstructionsAreNoOperations : Prop :=
  (DecodesTo 0xFC00003F#32 0x0000000C#32 (fun _ => .syscall) ∧
    DecodesTo 0xFC00003F#32 0x0000000D#32 (fun _ => .brk) ∧
    (∀ c w, c.trapOpcode = 0x1A#6 → w &&& 0xFC000000#32 = 0x68000000#32 → decodeWord c w = .ok .trap)) ∧
  ∀ s : State, GoesTo .syscall s (s.pc + 4#32) ∧ GoesTo .brk s (s.pc + 4#32) ∧ GoesTo .trap s (s.pc + 4#32)

/-! ## Registers and reset -/

/-- 10_state.md R21, R20, with the discard of D4 (the spec's decision; log 13): x[0] reads zero, after any sequence of
writes to it too; a write to x[0] changes no state at all; any other register reads back what was written, and no
other register changes. -/
def Obligations.RegisterZeroIsHardwired : Prop :=
  ∀ s : State,
    s.readReg 0#5 = 0x00000000#32 ∧
    (∀ values : List Word, values.foldl (fun t v => t.writeReg 0#5 v) s = s) ∧
    (∀ r v, (s.writeReg r v).readReg r = heldIn r v) ∧
    (∀ r k v, k ≠ r → (s.writeReg r v).readReg k = s.readReg k)

/-- 10_state.md R32: what reset leaves, in every configuration and for every entry address. -/
def Obligations.ResetLeavesTheStatedValues : Prop :=
  ∀ (c : Config) (entry : Word),
    let s := State.resetWith c entry
    (∀ r, s.readReg r = 0x00000000#32) ∧ s.hi = 0x00000000#32 ∧ s.lo = 0x00000000#32 ∧ s.pc = entry ∧
    (∀ a, s.readByte a = c.memDefault) ∧ s.stepsDone = 0 ∧ s.status = .running

/-- The core's reset state is a reset state of R32, and meets the invariant (its pc is the model's choice, log 8). -/
def Obligations.ResetMeetsTheInvariant : Prop :=
  (∀ (c : Config) (entry : Word), c.wellFormed = true → (State.resetWith c entry).Inv) ∧ State.reset.Inv

/-! ## Encoding -/

/-- For every well-formed configuration and every instruction, decoding its encoding gives it back, every operand at
every value (30_encoding.md R82 to R85, R91, R92). -/
def Obligations.DecodeOfEncodeIsIdentity : Prop :=
  ∀ (c : Config) (i : Instr), c.wellFormed = true → decodeWord c (encode c i) = .ok i

/-- The other direction: a word that decodes differs from the encoding of what it decodes to only in bits the
instruction ignores (30_encoding.md R86; that they are ignored is the spec's decision D27, log 14): it has the same
selecting bits, and every word of the same used bits decodes to the same instruction. -/
def Obligations.DecodedWordsDifferOnlyInIgnoredBits : Prop :=
  ∀ (c : Config) (w : Word) (i : Instr), decodeWord c w = .ok i →
    encode c i &&& usedBits i = w &&& usedBits i ∧
    ∀ w' : Word, w' &&& usedBits i = w &&& usedBits i → decodeWord c w' = .ok i

/-- 30_encoding.md R93: exactly the words whose opcode, or function code under opcode 0, is unassigned in R91 and R92
are refused by the decoder; executing one raises DecodeError(pc, word). -/
def Obligations.UnassignedEncodingsAreDecodeErrors : Prop :=
  ∀ (c : Config) (w : Word), c.trapOpcode = 0x1A#6 →
    let opcode := (opcodeOf w).toNat
    let funct := (functOf w).toNat
    let unassigned :=
      opcode = 0x01 ∨ (0x10 ≤ opcode ∧ opcode ≤ 0x19) ∨ (0x1B ≤ opcode ∧ opcode ≤ 0x1F) ∨ opcode = 0x22 ∨
      opcode = 0x26 ∨ opcode = 0x27 ∨ opcode = 0x2A ∨ 0x2C ≤ opcode ∨
      (opcode = 0 ∧
        (funct = 0x01 ∨ funct = 0x05 ∨ funct = 0x0A ∨ funct = 0x0B ∨ funct = 0x0E ∨ funct = 0x0F ∨
          (0x14 ≤ funct ∧ funct ≤ 0x17) ∨ (0x1C ≤ funct ∧ funct ≤ 0x1F) ∨ funct = 0x28 ∨ funct = 0x29 ∨
          0x2C ≤ funct))
    ((∃ r, decodeWord c w = .error r) ↔ unassigned) ∧
    ∀ s : State, s.config = c → s.status = .running → s.pc.toNat % 4 = 0 → s.fetchWord = w → unassigned →
      step s = .fault (.decodeError s.pc w)

/-- Words written out from the encodings of the spec (95_test_vectors.md) decode to the instructions they stand for.
-/
def Obligations.SampleWordsDecode : Prop :=
  decodeTableWord 32 0x00221820 = some (.add 3#5 1#5 2#5) ∧
  decodeTableWord 32 0x2022FFFF = some (.addi 2#5 1#5 0xFFFF#16) ∧
  decodeTableWord 32 0x0022001A = some (.div 1#5 2#5) ∧
  decodeTableWord 32 0x00021FC3 = some (.sra 3#5 2#5 31#5) ∧
  decodeTableWord 32 0x00221804 = some (.sllv 3#5 2#5 1#5) ∧
  decodeTableWord 32 0x3C081234 = some (.lui 8#5 0x1234#16) ∧
  decodeTableWord 32 0x3022FF00 = some (.andi 2#5 1#5 0xFF00#16) ∧
  decodeTableWord 32 0x1420FFFD = some (.bne 1#5 0#5 0xFFFD#16) ∧
  decodeTableWord 32 0x0C100040 = some (.jal 0x0100040#26) ∧
  decodeTableWord 32 0x00202809 = some (.jalr 5#5 1#5) ∧
  decodeTableWord 32 0x8C22FFFC = some (.lw 2#5 0xFFFC#16 1#5) ∧
  decodeTableWord 32 0xA4220002 = some (.sh 2#5 0x0002#16 1#5) ∧
  decodeTableWord 32 0x6BFFFFFF = some .trap ∧
  decodeTableWord 32 0x04110000 = none

/-! ## The step -/

/-- 40_pipeline.md R120: in a running state at a 4-byte-aligned pc, when the four bytes at pc decode to an
instruction, the step is that instruction's effect at this state, and a completed step is counted. -/
def Obligations.StepRunsTheDecodedInstruction : Prop :=
  ∀ (s : State) (i : Instr) (rest : List Byte), s.status = .running → s.pc.toNat % 4 = 0 →
    decodeBytes s.config
      [s.readByte s.pc, s.readByte (s.pc + 1#32), s.readByte (s.pc + 2#32), s.readByte (s.pc + 3#32)] = .ok (i, rest) →
    (∀ t, exec i s = .next t → step s = .next { t with stepsDone := t.stepsDone + 1 }) ∧
    (∀ f, exec i s = .fault f → step s = .fault f) ∧
    (∀ q, exec i s = .refused q → step s = .refused q)

/-- 20_memory.md R57: a step at a pc that is not a multiple of 4 raises AlignmentViolation(fetch, pc), whatever memory
holds. -/
def Obligations.MisalignedFetchIsFatal : Prop :=
  ∀ s : State, s.status = .running → s.pc.toNat % 4 ≠ 0 → step s = .fault (.fetchMisaligned s.pc)

/-- 60_exceptions.md R250, R256, with the spec's decisions D3 and D12 (log 3, log 4): a fatal halt of a step is one of
the five kinds, with exactly these causes, and reports the pc, the raw word and the operation of this step. -/
def Obligations.FatalHaltsHaveOnlyTheirListedCauses : Prop :=
  ∀ (s : State) (f : Fault), step s = .fault f →
    (s.pc.toNat % 4 ≠ 0 ∧ f = .fetchMisaligned s.pc) ∨
    (s.pc.toNat % 4 = 0 ∧ (∃ r, decodeWord s.config s.fetchWord = .error r) ∧ f = .decodeError s.pc s.fetchWord) ∨
    (s.pc.toNat % 4 = 0 ∧ ∃ i, decodeWord s.config s.fetchWord = .ok i ∧
      ((∃ rs rt, (i = .div rs rt ∨ i = .divu rs rt) ∧ s.readReg rt = 0x00000000#32 ∧
          f = .divideByZero s.pc s.fetchWord i) ∨
        (∃ rs rt, i = .div rs rt ∧ s.readReg rs = 0x80000000#32 ∧ s.readReg rt = 0xFFFFFFFF#32 ∧
          s.config.divOverflow = .fatal ∧ f = .divideOverflow s.pc s.fetchWord i) ∨
        (∃ rt imm rs, (i = .lw rt imm rs ∨ i = .sw rt imm rs) ∧ (effectiveAddress (s.readReg rs) imm).toNat % 4 ≠ 0 ∧
          f = .dataMisaligned (effectiveAddress (s.readReg rs) imm) s.pc s.fetchWord i) ∨
        (∃ rt imm rs, (i = .lh rt imm rs ∨ i = .lhu rt imm rs ∨ i = .sh rt imm rs) ∧
          (effectiveAddress (s.readReg rs) imm).toNat % 2 ≠ 0 ∧ s.config.halfAlign = .fatal ∧
          f = .dataMisaligned (effectiveAddress (s.readReg rs) imm) s.pc s.fetchWord i)))

/-- 00_scope.md R11: with HALF_ALIGN and JALR_RD at the spec's defaults a step of a running state has exactly one of
two outcomes: it completes, and the run goes on in the state it gives; or it raises a fatal halt, and the run ends
with the state as it was before the step. -/
def Obligations.RunningStepsCompleteOrHalt : Prop :=
  ∀ (s : State) (budget : Nat), NoRefusals s.config → s.status = .running → s.stepsDone < budget →
    (∃ t, step s = .next t ∧ runnerStep budget s = .ok t) ∨
    (∃ f, step s = .fault f ∧ runnerStep budget s = .ok { s with status := .fatal f })

/-- A run that has ended takes no further step (60_exceptions.md R257, R259); that the model answers a refusal there
is its own choice (log 10). -/
def Obligations.EndedRunsTakeNoStep : Prop :=
  ∀ (s : State) (budget : Nat), s.status ≠ .running → step s = .refused .runEnded ∧ runnerStep budget s = .ok s

/-! ## Rules about the whole machine -/

/-- The model's invariant is kept by every step, from every state that meets it (20_memory.md R50, R51; 10_state.md
R21). -/
def Obligations.StepKeepsTheInvariant : Prop :=
  ∀ s t : State, s.Inv → step s = .next t → t.Inv

/-- A completed step keeps the configuration and the status, and counts itself (00_scope.md R5, 40_pipeline.md R117).
-/
def Obligations.StepKeepsConfigurationAndCounts : Prop :=
  ∀ s t : State, step s = .next t →
    t.config = s.config ∧ s.status = .running ∧ t.status = .running ∧ t.stepsDone = s.stepsDone + 1

/-- 10_state.md R26, with the wrap of D13 (the spec's decision; log 14): only the eight control-transfer instructions
give pc a value other than pc + 4. -/
def Obligations.OnlyTransfersLeaveSequentialOrder : Prop :=
  ∀ (i : Instr) (s t : State), exec i s = .next t → isTransfer i = false → t.pc = s.pc + 4#32

/-- 46_branch_jump.md R209 (partly derived there by the spec): from an aligned pc, only `jr` and `jalr` can lead to a
pc that is not a multiple of 4. -/
def Obligations.OnlyRegisterJumpsMisalignPc : Prop :=
  ∀ (i : Instr) (s t : State), exec i s = .next t → s.pc.toNat % 4 = 0 → t.pc.toNat % 4 ≠ 0 →
    jumpsToRegister i = true

/-- 40_pipeline.md R116, the spec's reading D7 of write-back (log 14): a completed instruction changes no general
register but its destination in R116's table; HI only by mult, multu, div, divu, mthi; LO only by mult, multu, div,
divu, mtlo. -/
def Obligations.OnlyListedRegistersAreWritten : Prop :=
  ∀ (i : Instr) (s t : State), exec i s = .next t →
    (∀ r, destination i ≠ some r → t.readReg r = s.readReg r) ∧
    (t.hi ≠ s.hi → ∃ rs rt, i = .mult rs rt ∨ i = .multu rs rt ∨ i = .div rs rt ∨ i = .divu rs rt ∨ i = .mthi rs) ∧
    (t.lo ≠ s.lo → ∃ rs rt, i = .mult rs rt ∨ i = .multu rs rt ∨ i = .div rs rt ∨ i = .divu rs rt ∨ i = .mtlo rs)

/-- 20_memory.md R71: during a run memory is changed only by `sb`, `sh`, `sw`, and only in the bytes they name, at the
address the store's base register and displacement give. -/
def Obligations.OnlyStoresChangeMemory : Prop :=
  ∀ (s t : State) (a : Word), step s = .next t → t.readByte a ≠ s.readByte a →
    ∃ i rs imm n, decodeWord s.config s.fetchWord = .ok i ∧ storeFootprint i = some (rs, imm, n) ∧
      ∃ k < n, a = effectiveAddress (s.readReg rs) imm + BitVec.ofNat 32 k

/-- 10_state.md R24: HI is read by `mfhi` only and LO by `mflo` only: with other values in them every other
instruction does the same, stops included, but for HI and LO themselves, which it either leaves or sets to the same
values. -/
def Obligations.OnlyMovesFromReadTheAccumulators : Prop :=
  ∀ (i : Instr) (s : State) (h l : Word), (∀ rd, i ≠ .mfhi rd) → (∀ rd, i ≠ .mflo rd) →
    SameOutcome
      (fun t u => u = { t with hi := u.hi, lo := u.lo } ∧ (u.hi = t.hi ∨ t.hi = s.hi ∧ u.hi = h) ∧
        (u.lo = t.lo ∨ t.lo = s.lo ∧ u.lo = l))
      (exec i s) (exec i { s with hi := h, lo := l })

/-- A register an instruction does not name cannot influence it: with another value in x[r], where r is none of its
operands, the instruction stops or completes alike, with the same report, and what it leaves differs at most in x[r],
which it has either left in both runs or set to the same value in both (40_pipeline.md R113, R114; the register access
table of 10_state.md R23). -/
def Obligations.OnlyNamedRegistersAreRead : Prop :=
  ∀ (i : Instr) (s : State) (r : RegIdx) (v : Word), r ∉ sources i →
    SameOutcome
      (fun t u => u.hi = t.hi ∧ u.lo = t.lo ∧ u.pc = t.pc ∧ u.mem = t.mem ∧ SameRegsBut r t u ∧ SameControl t u ∧
        (u.readReg r = t.readReg r ∨ t.readReg r = s.readReg r ∧ u.readReg r = heldIn r v))
      (exec i s) (exec i (s.writeReg r v))

/-! ## Memory -/

/-- 20_memory.md R54, R55, R53: reading back what was written, at each width, under either byte order, at every address
in the primitives' domain `u(a) + n ≤ 2^32`; a write there changes no other byte. Outside the domain the spec leaves the
primitives undefined and the model's wrap is its own choice (log 17), of which nothing is stated. -/
def Obligations.MemoryReadsBackWhatWasWritten : Prop :=
  ∀ (s : State) (a : Word) (b : Byte) (h : Half) (w : Word),
    ((s.writeByte a b).readByte a = b ∧ SameMemoryOutside a 1 s (s.writeByte a b)) ∧
    (a.toNat + 2 ≤ 2 ^ 32 → (s.writeHalf a h).readHalf a = h ∧ SameMemoryOutside a 2 s (s.writeHalf a h)) ∧
    (a.toNat + 4 ≤ 2 ^ 32 → (s.writeWord a w).readWord a = w ∧ SameMemoryOutside a 4 s (s.writeWord a w))

/-- Of the model's own representation of memory, a canonical list (DESIGN CHOICE, log 16), and of no rule of the spec: two
lists in canonical form that read the same at every address are the same list, so the representation stands for exactly
the functions from address to byte that 20_memory.md section 1 says memory is. -/
def Obligations.CanonicalMemoriesWithEqualReadsAreEqual : Prop :=
  ∀ (d : Byte) (m n : Memory), Memory.wf d m = true → Memory.wf d n = true →
    (∀ a : Word, Memory.get d m a.toNat = Memory.get d n a.toNat) → m = n

/-- Of 47_load_store.md R229 with the byte orders of 20_memory.md R53 (D1, the spec's decision; log 1): R229 gives the
sub-fields after `sw` for `lbu` only; the halfword ones, which the spec's R53 marks as derived under little and no rule
gives under big, follow from R53 to R55. After a store (state t), in every state u with the same memory and
configuration, a load of the same width at the same address gives the stored value, widened; and after `sw` of v at a,
a byte load of a + k gives v[8k+7:8k] under little and v[31-8k:24-8k] under big, a halfword load of a + 2j gives
v[16j+15:16j] under little and v[31-16j:16-16j] under big. -/
def Obligations.StoredValuesAreLoadedBack : Prop :=
  ∀ (s t u : State) (rt rs : RegIdx) (imm : BitVec 16), SameMemory t u → u.config = s.config →
    let v := s.readReg rt
    let a := effectiveAddress (s.readReg rs) imm
    ∀ (rd base : RegIdx) (disp : BitVec 16),
      let b := effectiveAddress (u.readReg base) disp
      (exec (.sw rt imm rs) s = .next t →
        (b = a → SetsRegister (.lw rd disp base) u rd v) ∧
        (∀ k < 4, b = a + BitVec.ofNat 32 k →
          let byte := v.extractLsb' (match u.config.byteOrder with | .little => 8 * k | .big => 24 - 8 * k) 8
          SetsRegister (.lbu rd disp base) u rd (BitVec.ofNat 32 byte.toNat) ∧
          SetsRegister (.lb rd disp base) u rd (BitVec.ofInt 32 byte.toInt)) ∧
        (∀ j < 2, b = a + BitVec.ofNat 32 (2 * j) →
          let half := v.extractLsb' (match u.config.byteOrder with | .little => 16 * j | .big => 16 - 16 * j) 16
          SetsRegister (.lhu rd disp base) u rd (BitVec.ofNat 32 half.toNat) ∧
          SetsRegister (.lh rd disp base) u rd (BitVec.ofInt 32 half.toInt))) ∧
      (exec (.sh rt imm rs) s = .next t → b = a →
        SetsRegister (.lhu rd disp base) u rd (BitVec.ofNat 32 (v.toNat % 2 ^ 16)) ∧
        SetsRegister (.lh rd disp base) u rd (BitVec.ofInt 32 (BitVec.ofNat 16 v.toNat).toInt)) ∧
      (exec (.sb rt imm rs) s = .next t → b = a →
        SetsRegister (.lbu rd disp base) u rd (BitVec.ofNat 32 (v.toNat % 2 ^ 8)) ∧
        SetsRegister (.lb rd disp base) u rd (BitVec.ofInt 32 (BitVec.ofNat 8 v.toNat).toInt))

/-- 20_memory.md R67 (derived there by the spec): a word stored where the next step fetches is the word the next step
fetches. -/
def Obligations.StoreIntoTheInstructionStreamIsFetched : Prop :=
  ∀ (s t : State) (rt rs : RegIdx) (imm : BitVec 16), decodeWord s.config s.fetchWord = .ok (.sw rt imm rs) →
    effectiveAddress (s.readReg rs) imm = s.pc + 4#32 → step s = .next t → t.fetchWord = s.readReg rt

/-! ## The run -/

/-- 70_reset_and_hazards.md R280, R281, 20_memory.md R70: with an empty IMAGE launching gives the reset state with pc at
ENTRY; launching with one more segment at the end of IMAGE succeeds
exactly when every segment fits, leaves every register zero and pc at ENTRY, puts the last segment's bytes at its
addresses whatever the earlier ones hold, and elsewhere leaves what they left. -/
def Obligations.LaunchLoadsTheImage : Prop :=
  ∀ (c : Config) (image : Image) (start entry : Word) (bytes : List Byte),
    launch c [] entry = some (State.resetWith c entry) ∧
    ((launch c (image ++ [(start, bytes)]) entry).isSome = true ↔
      start.toNat + bytes.length ≤ 2 ^ 32 ∧ (launch c image entry).isSome = true) ∧
    ∀ s t : State, launch c image entry = some s → launch c (image ++ [(start, bytes)]) entry = some t →
      (∀ r, t.readReg r = 0x00000000#32) ∧ t.hi = 0x00000000#32 ∧ t.lo = 0x00000000#32 ∧ t.pc = entry ∧
      t.stepsDone = 0 ∧ t.status = .running ∧ t.config = c ∧
      (∀ k b, bytes[k]? = some b → t.readByte (start + BitVec.ofNat 32 k) = b) ∧
      SameMemoryOutside start bytes.length s t

/-- 70_reset_and_hazards.md R283, with the count of D20 (the spec's decision): a run, traced or not, ends in exactly one
of two ways: at the budget, with the state after exactly MAX_INSTRUCTIONS completed steps; or at a fatal halt, with the
state of before the step that raised, which is the state after the steps completed before it. -/
def Obligations.EveryRunEndsAtItsBudgetOrAFatalHalt : Prop :=
  ∀ (s : State) (trace : Tracing) (budget : Nat), NoRefusals s.config → s.status = .running → s.stepsDone ≤ budget →
    ∃ u, runToEnd trace budget ⟨s, []⟩ = .ok u ∧
      ((∃ t : State, Sys2Proof.core.run (budget - s.stepsDone) s = .next t ∧ t.stepsDone = budget ∧
          u.state = { t with status := .budgetReached }) ∨
        (∃ (n : Nat) (t : State) (f : Fault), n < budget - s.stepsDone ∧ Sys2Proof.core.run n s = .next t ∧
          t.stepsDone = s.stepsDone + n ∧ step t = .fault f ∧ u.state = { t with status := .fatal f }))

/-- 40_pipeline.md R118: a completed step has one line, of the pc and the raw word of the instruction and its mnemonic;
it shows every register the instruction reads, and every register it shows has the value read at ReadOperands; a step
that stops has none. -/
def Obligations.TraceLineShowsValuesAsRead : Prop :=
  ∀ s : State,
    (∀ t, step s = .next t → ∃ line i, traceLine s = some line ∧ decodeWord s.config s.fetchWord = .ok i ∧
      line.pc = s.pc ∧ line.raw = s.fetchWord ∧ line.mnemonic = mnemonic i ∧
      (∀ r ∈ sources i, TraceOperand.register r (s.readReg r) ∈ line.operands) ∧
      ∀ r v, TraceOperand.register r v ∈ line.operands → v = s.readReg r) ∧
    (∀ f, step s = .fault f → traceLine s = none) ∧
    (∀ q, step s = .refused q → traceLine s = none)

/-- 70_reset_and_hazards.md R282 with 40_pipeline.md R118: with TRACE on the runner receives exactly one line for each
completed step, in order, and with TRACE off none; the end of the run is the same state either way. -/
def Obligations.TracedRunsEmitOneLinePerCompletedStep : Prop :=
  ∀ (s : State) (budget : Nat), NoRefusals s.config → s.status = .running → s.stepsDone ≤ budget →
    ∃ u v, runToEnd .on budget ⟨s, []⟩ = .ok u ∧ runToEnd .off budget ⟨s, []⟩ = .ok v ∧
      v.state = u.state ∧ v.lines = [] ∧ u.state.stepsDone = s.stepsDone + u.lines.length ∧
      ∀ (k : Nat) (line : TraceLine), u.lines[k]? = some line →
        ∃ t : State, Sys2Proof.core.run k s = .next t ∧ traceLine t = some line

/-- 40_pipeline.md R118: the text of a line has pc, raw word and mnemonic in this order, pc and raw word as eight
hexadecimal digits with leading zeros; the letter case is open and the same for all digits of one number (log 12). -/
def Obligations.TraceTextShowsEightHexDigits : Prop :=
  (∀ line : TraceLine, ∃ a b c d : String,
    line.text = a ++ hex8 .pc line.pc ++ b ++ hex8 .raw line.raw ++ c ++ line.mnemonic ++ d) ∧
  ∀ (part : TracePart) (v : Word), (hex8 part v).toList.length = 8 ∧
    ∀ k < 8, (hex8 part v).toList[k]? =
      (if Config.traceUpper part then "0123456789ABCDEF" else "0123456789abcdef").toList[v.toNat / 16 ^ (7 - k) % 16]?
end

