-- ==== Sys2Proof/Laws/Bytes.lean ====
section
/-! SUPPORT. Laws/Bytes.lean: joining the bytes a store wrote gives the stored value, under either byte order. -/

namespace Sys2Proof.Machine

@[simp] theorem joinHalf_halfByte (o : ByteOrder) (v : Half) : joinHalf o (halfByte o v 0) (halfByte o v 1) = v := by
  apply BitVec.eq_of_getLsbD_eq
  intro k hk
  cases o <;> simp only [joinHalf, halfByte, BitVec.getLsbD_append] <;> interval_cases k <;> simp

@[simp] theorem joinWord_wordByte (o : ByteOrder) (v : Word) :
    joinWord o (wordByte o v 0) (wordByte o v 1) (wordByte o v 2) (wordByte o v 3) = v := by
  apply BitVec.eq_of_getLsbD_eq
  intro k hk
  cases o <;> simp only [joinWord, wordByte, BitVec.getLsbD_append] <;> interval_cases k <;> simp

end Sys2Proof.Machine
end

