-- ==== Sys2Proof/Laws/Decode.lean ====
section
/-! SUPPORT. Laws/Decode.lean: the fields of the three layouts, and what a match under a rule's mask says of the
selecting fields. -/

namespace Sys2Proof

/-! ## Fields of the layouts (30_encoding.md R82 to R84) -/

section
variable (op : BitVec 6) (rs rt rd : RegIdx) (sh : BitVec 5) (f : BitVec 6) (imm : BitVec 16) (off : BitVec 26)

@[simp] theorem opcodeOf_registerWord : opcodeOf (registerWord rs rt rd sh f) = 0x00#6 := by
  ext k hk
  simp only [opcodeOf, registerWord, BitVec.getElem_extractLsb', BitVec.getLsbD_append]
  interval_cases k <;> simp

@[simp] theorem rsOf_registerWord : rsOf (registerWord rs rt rd sh f) = rs := by
  ext k hk
  simp only [rsOf, registerWord, BitVec.getElem_extractLsb', BitVec.getLsbD_append]
  interval_cases k <;> simp

@[simp] theorem rtOf_registerWord : rtOf (registerWord rs rt rd sh f) = rt := by
  ext k hk
  simp only [rtOf, registerWord, BitVec.getElem_extractLsb', BitVec.getLsbD_append]
  interval_cases k <;> simp

@[simp] theorem rdOf_registerWord : rdOf (registerWord rs rt rd sh f) = rd := by
  ext k hk
  simp only [rdOf, registerWord, BitVec.getElem_extractLsb', BitVec.getLsbD_append]
  interval_cases k <;> simp

@[simp] theorem shamtOf_registerWord : shamtOf (registerWord rs rt rd sh f) = sh := by
  ext k hk
  simp only [shamtOf, registerWord, BitVec.getElem_extractLsb', BitVec.getLsbD_append]
  interval_cases k <;> simp

@[simp] theorem functOf_registerWord : functOf (registerWord rs rt rd sh f) = f := by
  ext k hk
  simp only [functOf, registerWord, BitVec.getElem_extractLsb', BitVec.getLsbD_append]
  interval_cases k <;> simp

@[simp] theorem opcodeOf_immediateWord : opcodeOf (immediateWord op rs rt imm) = op := by
  ext k hk
  simp only [opcodeOf, immediateWord, BitVec.getElem_extractLsb', BitVec.getLsbD_append]
  interval_cases k <;> simp

@[simp] theorem rsOf_immediateWord : rsOf (immediateWord op rs rt imm) = rs := by
  ext k hk
  simp only [rsOf, immediateWord, BitVec.getElem_extractLsb', BitVec.getLsbD_append]
  interval_cases k <;> simp

@[simp] theorem rtOf_immediateWord : rtOf (immediateWord op rs rt imm) = rt := by
  ext k hk
  simp only [rtOf, immediateWord, BitVec.getElem_extractLsb', BitVec.getLsbD_append]
  interval_cases k <;> simp

@[simp] theorem immOf_immediateWord : immOf (immediateWord op rs rt imm) = imm := by
  ext k hk
  simp only [immOf, immediateWord, BitVec.getElem_extractLsb', BitVec.getLsbD_append]
  interval_cases k <;> simp

@[simp] theorem opcodeOf_jumpWord : opcodeOf (jumpWord op off) = op := by
  ext k hk
  simp only [opcodeOf, jumpWord, BitVec.getElem_extractLsb', BitVec.getLsbD_append]
  interval_cases k <;> simp

@[simp] theorem offsetOf_jumpWord : offsetOf (jumpWord op off) = off := by
  ext k hk
  simp only [offsetOf, jumpWord, BitVec.getElem_extractLsb', BitVec.getLsbD_append]
  interval_cases k <;> simp

end

/-! ## Masks (30_encoding.md R86) -/

/-- Masking keeps a field whose bits the mask holds. -/
theorem extractLsb'_of_masked {w v m : Word} (h : w &&& m = v) (lo n : Nat)
    (hm : ∀ k < n, m.getLsbD (lo + k) = true) : w.extractLsb' lo n = v.extractLsb' lo n := by
  subst h
  ext k hk
  simp [hm k hk]

theorem opcodeOf_of_opcodeMask {w v : Word} (h : w &&& 0xFC000000#32 = v) : opcodeOf w = opcodeOf v :=
  extractLsb'_of_masked h 26 6 (by decide)

theorem opcodeOf_of_functMask {w v : Word} (h : w &&& 0xFC00003F#32 = v) : opcodeOf w = opcodeOf v :=
  extractLsb'_of_masked h 26 6 (by decide)

theorem functOf_of_functMask {w v : Word} (h : w &&& 0xFC00003F#32 = v) : functOf w = functOf v :=
  extractLsb'_of_masked h 0 6 (by decide)

/-! ## The opcode of `trap` -/

/-- In a well-formed configuration no other instruction has the opcode of `trap`. -/
theorem Config.trapOpcode_ne {c : Config} (h : c.wellFormed = true) {op : BitVec 6} (hop : op ∈ primaryOpcodes) :
    c.trapOpcode ≠ op := by
  intro e
  simp [Config.wellFormed, e, hop] at h

end Sys2Proof
end

