-- ==== Sys2Proof/Laws/Memory.lean ====
section
/-! SUPPORT. Laws/Memory.lean: the sparse memory read back after a write, and the canonical form, which every
memory operation keeps. -/

namespace Sys2Proof.Machine

variable {d : Byte}

theorem Memory.get_eraseAt_same (m : Memory) (a : Nat) : Memory.get d (Memory.eraseAt m a) a = d := by
  induction m with
  | nil => rfl
  | cons c m ih =>
    obtain ⟨k, v⟩ := c
    by_cases h : k = a
    · simpa [Memory.eraseAt, h] using ih
    · have h' : ¬ a = k := fun e => h e.symm
      simpa [Memory.eraseAt, Memory.get, h, h'] using ih

theorem Memory.get_eraseAt_other (m : Memory) {a b : Nat} (hab : b ≠ a) :
    Memory.get d (Memory.eraseAt m a) b = Memory.get d m b := by
  induction m with
  | nil => rfl
  | cons c m ih =>
    obtain ⟨k, v⟩ := c
    by_cases h : k = a
    · subst h
      simpa [Memory.eraseAt, Memory.get, hab] using ih
    · by_cases hb : b = k
      · simp [Memory.eraseAt, Memory.get, h, hb]
      · simpa [Memory.eraseAt, Memory.get, h, hb] using ih

theorem Memory.get_insertAt_other (m : Memory) {a b : Nat} (v : Byte) (hab : b ≠ a) :
    Memory.get d (Memory.insertAt m a v) b = Memory.get d m b := by
  induction m with
  | nil => simp [Memory.insertAt, Memory.get, hab]
  | cons c m ih =>
    obtain ⟨k, w⟩ := c
    simp only [Memory.insertAt]
    split
    · simp [Memory.get, hab]
    · simp [Memory.get, ih]

theorem Memory.get_insertAt_same (m : Memory) (a : Nat) (v : Byte) (h : ∀ c ∈ m, c.1 ≠ a) :
    Memory.get d (Memory.insertAt m a v) a = v := by
  induction m with
  | nil => simp [Memory.insertAt, Memory.get]
  | cons c m ih =>
    obtain ⟨k, w⟩ := c
    have hk : ¬ a = k := fun e => h (k, w) (by simp) e.symm
    simp only [Memory.insertAt]
    split
    · simp [Memory.get]
    · simp only [Memory.get, hk, if_false]
      exact ih fun c hc => h c (by simp [hc])

/-- A write is read back. -/
theorem Memory.get_set_same (m : Memory) (a : Nat) (b : Byte) : Memory.get d (Memory.set d m a b) a = b := by
  unfold Memory.set
  split
  · next h => rw [h, Memory.get_eraseAt_same]
  · exact Memory.get_insertAt_same _ _ _ fun c hc => by simpa using (List.mem_filter.1 hc).2

/-- A write leaves every other address alone. -/
theorem Memory.get_set_other (m : Memory) {a k : Nat} (b : Byte) (h : k ≠ a) :
    Memory.get d (Memory.set d m a b) k = Memory.get d m k := by
  unfold Memory.set
  split
  · exact Memory.get_eraseAt_other m h
  · rw [Memory.get_insertAt_other _ _ h, Memory.get_eraseAt_other m h]

theorem Memory.get_set (m : Memory) (a k : Nat) (b : Byte) :
    Memory.get d (Memory.set d m a b) k = if k = a then b else Memory.get d m k := by
  split
  · next h => rw [h, Memory.get_set_same]
  · next h => exact Memory.get_set_other m b h

/-! ## The canonical form -/

theorem Memory.wfFrom_weaken {lo lo' : Nat} (h : lo' ≤ lo) :
    ∀ {m : Memory}, Memory.wfFrom d lo m = true → Memory.wfFrom d lo' m = true
  | [], _ => rfl
  | (k, v) :: m, hm => by
    simp only [Memory.wfFrom, Bool.and_eq_true, decide_eq_true_eq] at hm ⊢
    exact ⟨⟨⟨by omega, hm.1.1.2⟩, hm.1.2⟩, hm.2⟩

theorem Memory.wfFrom_eraseAt (a : Nat) {lo : Nat} {m : Memory} (h : Memory.wfFrom d lo m = true) :
    Memory.wfFrom d lo (Memory.eraseAt m a) = true := by
  induction m generalizing lo with
  | nil => rfl
  | cons c m ih =>
    obtain ⟨k, v⟩ := c
    simp only [Memory.wfFrom, Bool.and_eq_true, decide_eq_true_eq] at h
    have hm : Memory.wfFrom d (k + 1) (Memory.eraseAt m a) = true := ih h.2
    by_cases hk : k = a
    · have : Memory.eraseAt ((k, v) :: m) a = Memory.eraseAt m a := by simp [Memory.eraseAt, hk]
      rw [this]
      exact Memory.wfFrom_weaken (by omega) hm
    · have : Memory.eraseAt ((k, v) :: m) a = (k, v) :: Memory.eraseAt m a := by simp [Memory.eraseAt, hk]
      rw [this]
      simp only [Memory.wfFrom, Bool.and_eq_true, decide_eq_true_eq]
      exact ⟨h.1, hm⟩

theorem Memory.wfFrom_insertAt {a lo : Nat} {b : Byte} (hb : b ≠ d) (ha : a < 2 ^ 32) {m : Memory} (hlo : lo ≤ a)
    (hne : ∀ c ∈ m, c.1 ≠ a) (h : Memory.wfFrom d lo m = true) :
    Memory.wfFrom d lo (Memory.insertAt m a b) = true := by
  induction m generalizing lo with
  | nil => simp [Memory.insertAt, Memory.wfFrom, hlo, hb]; omega
  | cons c m ih =>
    obtain ⟨k, v⟩ := c
    have hk : k ≠ a := hne (k, v) (by simp)
    simp only [Memory.wfFrom, Bool.and_eq_true, decide_eq_true_eq] at h
    simp only [Memory.insertAt]
    split
    · next hlt =>
      simp only [Memory.wfFrom, Bool.and_eq_true, decide_eq_true_eq]
      exact ⟨⟨⟨hlo, ha⟩, hb⟩, ⟨⟨by omega, h.1.1.2⟩, h.1.2⟩, h.2⟩
    · next hge =>
      simp only [Memory.wfFrom, Bool.and_eq_true, decide_eq_true_eq]
      exact ⟨h.1, ih (by omega) (fun c hc => hne c (by simp [hc])) h.2⟩

/-- A write within the address space keeps the canonical form. -/
theorem Memory.wf_set {m : Memory} {a : Nat} (b : Byte) (ha : a < 2 ^ 32) (h : Memory.wf d m = true) :
    Memory.wf d (Memory.set d m a b) = true := by
  unfold Memory.wf Memory.set at *
  split
  · exact Memory.wfFrom_eraseAt a h
  · next hb =>
    exact Memory.wfFrom_insertAt hb ha (Nat.zero_le a)
      (fun c hc => by simpa using (List.mem_filter.1 hc).2) (Memory.wfFrom_eraseAt a h)

/-- Writing a segment that fits keeps the canonical form. -/
theorem Memory.wf_setBytes {m : Memory} {a : Nat} (bytes : List Byte) (ha : a + bytes.length ≤ 2 ^ 32)
    (h : Memory.wf d m = true) : Memory.wf d (Memory.setBytes d m a bytes) = true := by
  induction bytes generalizing m a with
  | nil => exact h
  | cons b bs ih =>
    simp only [List.length_cons] at ha
    exact ih (by omega) (Memory.wf_set b (by omega) h)

/-- What a segment's write leaves at an address. -/
theorem Memory.get_setBytes (m : Memory) (a k : Nat) (bytes : List Byte) :
    Memory.get d (Memory.setBytes d m a bytes) k =
      if a ≤ k then (bytes[k - a]?).getD (Memory.get d m k) else Memory.get d m k := by
  induction bytes generalizing m a with
  | nil => simp [Memory.setBytes]
  | cons b bs ih =>
    simp only [Memory.setBytes, ih, Memory.get_set]
    by_cases h1 : a + 1 ≤ k
    · have h2 : a ≤ k := by omega
      have h3 : k ≠ a := by omega
      obtain ⟨j, rfl⟩ : ∃ j, k = a + 1 + j := ⟨k - (a + 1), by omega⟩
      have e1 : a + 1 + j - (a + 1) = j := by omega
      have e2 : a + 1 + j - a = j + 1 := by omega
      simp [h1, h2, h3, e1, e2]
    · by_cases h2 : k = a
      · subst h2; simp
      · have h3 : ¬ a ≤ k := by omega
        simp [h1, h2, h3]

/-- Below the first listed address every byte is the default. -/
theorem Memory.get_of_lt {lo a : Nat} {m : Memory} (h : Memory.wfFrom d lo m = true) (ha : a < lo) :
    Memory.get d m a = d := by
  induction m generalizing lo with
  | nil => rfl
  | cons c m ih =>
    obtain ⟨k, v⟩ := c
    simp only [Memory.wfFrom, Bool.and_eq_true, decide_eq_true_eq] at h
    have hk : ¬ a = k := by omega
    simp only [Memory.get, hk, if_false]
    exact ih h.2 (by omega)

end Sys2Proof.Machine
end

