-- ==== Sys2Proof/Laws/State.lean ====
section
/-! SUPPORT. Laws/State.lean: what each named update leaves in each field of State, and how register and memory reads see
it. Later proofs cite these and unfold no record update. -/

namespace Sys2Proof.Machine

variable (s : State)

/-! ## Fields after updates -/

@[simp] theorem State.writeReg_hi (r : RegIdx) (v : Word) : (s.writeReg r v).hi = s.hi := by unfold State.writeReg; split <;> rfl
@[simp] theorem State.writeReg_lo (r : RegIdx) (v : Word) : (s.writeReg r v).lo = s.lo := by unfold State.writeReg; split <;> rfl
@[simp] theorem State.writeReg_pc (r : RegIdx) (v : Word) : (s.writeReg r v).pc = s.pc := by unfold State.writeReg; split <;> rfl
@[simp] theorem State.writeReg_mem (r : RegIdx) (v : Word) : (s.writeReg r v).mem = s.mem := by unfold State.writeReg; split <;> rfl
@[simp] theorem State.writeReg_config (r : RegIdx) (v : Word) : (s.writeReg r v).config = s.config := by unfold State.writeReg; split <;> rfl
@[simp] theorem State.writeReg_stepsDone (r : RegIdx) (v : Word) : (s.writeReg r v).stepsDone = s.stepsDone := by unfold State.writeReg; split <;> rfl
@[simp] theorem State.writeReg_status (r : RegIdx) (v : Word) : (s.writeReg r v).status = s.status := by unfold State.writeReg; split <;> rfl

@[simp] theorem State.setHi_regs (v : Word) : (s.setHi v).regs = s.regs := rfl
@[simp] theorem State.setHi_hi (v : Word) : (s.setHi v).hi = v := rfl
@[simp] theorem State.setHi_lo (v : Word) : (s.setHi v).lo = s.lo := rfl
@[simp] theorem State.setHi_pc (v : Word) : (s.setHi v).pc = s.pc := rfl
@[simp] theorem State.setHi_mem (v : Word) : (s.setHi v).mem = s.mem := rfl
@[simp] theorem State.setHi_config (v : Word) : (s.setHi v).config = s.config := rfl
@[simp] theorem State.setHi_stepsDone (v : Word) : (s.setHi v).stepsDone = s.stepsDone := rfl
@[simp] theorem State.setHi_status (v : Word) : (s.setHi v).status = s.status := rfl

@[simp] theorem State.setLo_regs (v : Word) : (s.setLo v).regs = s.regs := rfl
@[simp] theorem State.setLo_hi (v : Word) : (s.setLo v).hi = s.hi := rfl
@[simp] theorem State.setLo_lo (v : Word) : (s.setLo v).lo = v := rfl
@[simp] theorem State.setLo_pc (v : Word) : (s.setLo v).pc = s.pc := rfl
@[simp] theorem State.setLo_mem (v : Word) : (s.setLo v).mem = s.mem := rfl
@[simp] theorem State.setLo_config (v : Word) : (s.setLo v).config = s.config := rfl
@[simp] theorem State.setLo_stepsDone (v : Word) : (s.setLo v).stepsDone = s.stepsDone := rfl
@[simp] theorem State.setLo_status (v : Word) : (s.setLo v).status = s.status := rfl

@[simp] theorem State.setPc_regs (p : Word) : (s.setPc p).regs = s.regs := rfl
@[simp] theorem State.setPc_hi (p : Word) : (s.setPc p).hi = s.hi := rfl
@[simp] theorem State.setPc_lo (p : Word) : (s.setPc p).lo = s.lo := rfl
@[simp] theorem State.setPc_pc (p : Word) : (s.setPc p).pc = p := rfl
@[simp] theorem State.setPc_mem (p : Word) : (s.setPc p).mem = s.mem := rfl
@[simp] theorem State.setPc_config (p : Word) : (s.setPc p).config = s.config := rfl
@[simp] theorem State.setPc_stepsDone (p : Word) : (s.setPc p).stepsDone = s.stepsDone := rfl
@[simp] theorem State.setPc_status (p : Word) : (s.setPc p).status = s.status := rfl

@[simp] theorem State.advance_regs : s.advance.regs = s.regs := rfl
@[simp] theorem State.advance_hi : s.advance.hi = s.hi := rfl
@[simp] theorem State.advance_lo : s.advance.lo = s.lo := rfl
@[simp] theorem State.advance_pc : s.advance.pc = s.pc + 4#32 := rfl
@[simp] theorem State.advance_mem : s.advance.mem = s.mem := rfl
@[simp] theorem State.advance_config : s.advance.config = s.config := rfl
@[simp] theorem State.advance_stepsDone : s.advance.stepsDone = s.stepsDone := rfl
@[simp] theorem State.advance_status : s.advance.status = s.status := rfl

@[simp] theorem State.writeByte_regs (a : Word) (b : Byte) : (s.writeByte a b).regs = s.regs := rfl
@[simp] theorem State.writeByte_hi (a : Word) (b : Byte) : (s.writeByte a b).hi = s.hi := rfl
@[simp] theorem State.writeByte_lo (a : Word) (b : Byte) : (s.writeByte a b).lo = s.lo := rfl
@[simp] theorem State.writeByte_pc (a : Word) (b : Byte) : (s.writeByte a b).pc = s.pc := rfl
@[simp] theorem State.writeByte_mem (a : Word) (b : Byte) : (s.writeByte a b).mem = Memory.set s.config.memDefault s.mem a.toNat b := rfl
@[simp] theorem State.writeByte_config (a : Word) (b : Byte) : (s.writeByte a b).config = s.config := rfl
@[simp] theorem State.writeByte_stepsDone (a : Word) (b : Byte) : (s.writeByte a b).stepsDone = s.stepsDone := rfl
@[simp] theorem State.writeByte_status (a : Word) (b : Byte) : (s.writeByte a b).status = s.status := rfl

@[simp] theorem State.writeHalf_regs (a : Word) (h : Half) : (s.writeHalf a h).regs = s.regs := rfl
@[simp] theorem State.writeHalf_hi (a : Word) (h : Half) : (s.writeHalf a h).hi = s.hi := rfl
@[simp] theorem State.writeHalf_lo (a : Word) (h : Half) : (s.writeHalf a h).lo = s.lo := rfl
@[simp] theorem State.writeHalf_pc (a : Word) (h : Half) : (s.writeHalf a h).pc = s.pc := rfl
@[simp] theorem State.writeHalf_config (a : Word) (h : Half) : (s.writeHalf a h).config = s.config := rfl
@[simp] theorem State.writeHalf_stepsDone (a : Word) (h : Half) : (s.writeHalf a h).stepsDone = s.stepsDone := rfl
@[simp] theorem State.writeHalf_status (a : Word) (h : Half) : (s.writeHalf a h).status = s.status := rfl

@[simp] theorem State.writeWord_regs (a : Word) (w : Word) : (s.writeWord a w).regs = s.regs := rfl
@[simp] theorem State.writeWord_hi (a : Word) (w : Word) : (s.writeWord a w).hi = s.hi := rfl
@[simp] theorem State.writeWord_lo (a : Word) (w : Word) : (s.writeWord a w).lo = s.lo := rfl
@[simp] theorem State.writeWord_pc (a : Word) (w : Word) : (s.writeWord a w).pc = s.pc := rfl
@[simp] theorem State.writeWord_config (a : Word) (w : Word) : (s.writeWord a w).config = s.config := rfl
@[simp] theorem State.writeWord_stepsDone (a : Word) (w : Word) : (s.writeWord a w).stepsDone = s.stepsDone := rfl
@[simp] theorem State.writeWord_status (a : Word) (w : Word) : (s.writeWord a w).status = s.status := rfl

@[simp] theorem State.countStep_regs : s.countStep.regs = s.regs := rfl
@[simp] theorem State.countStep_hi : s.countStep.hi = s.hi := rfl
@[simp] theorem State.countStep_lo : s.countStep.lo = s.lo := rfl
@[simp] theorem State.countStep_pc : s.countStep.pc = s.pc := rfl
@[simp] theorem State.countStep_mem : s.countStep.mem = s.mem := rfl
@[simp] theorem State.countStep_config : s.countStep.config = s.config := rfl
@[simp] theorem State.countStep_stepsDone : s.countStep.stepsDone = s.stepsDone + 1 := rfl
@[simp] theorem State.countStep_status : s.countStep.status = s.status := rfl

/-! ## Register reads -/

@[simp] theorem State.readReg_zero : s.readReg 0#5 = 0x00000000#32 := rfl

theorem State.readReg_of_regs {s t : State} (h : t.regs = s.regs) (r : RegIdx) : t.readReg r = s.readReg r := by
  simp only [State.readReg, h]

@[simp] theorem State.readReg_setHi (v : Word) (k : RegIdx) : (s.setHi v).readReg k = s.readReg k := rfl
@[simp] theorem State.readReg_setLo (v : Word) (k : RegIdx) : (s.setLo v).readReg k = s.readReg k := rfl
@[simp] theorem State.readReg_setPc (p : Word) (k : RegIdx) : (s.setPc p).readReg k = s.readReg k := rfl
@[simp] theorem State.readReg_advance (k : RegIdx) : s.advance.readReg k = s.readReg k := rfl
@[simp] theorem State.readReg_writeByte (a : Word) (b : Byte) (k : RegIdx) : (s.writeByte a b).readReg k = s.readReg k := rfl
@[simp] theorem State.readReg_writeHalf (a : Word) (h : Half) (k : RegIdx) : (s.writeHalf a h).readReg k = s.readReg k := rfl
@[simp] theorem State.readReg_writeWord (a : Word) (w : Word) (k : RegIdx) : (s.writeWord a w).readReg k = s.readReg k := rfl
@[simp] theorem State.readReg_countStep (k : RegIdx) : s.countStep.readReg k = s.readReg k := rfl

@[simp] theorem State.writeReg_zero (v : Word) : s.writeReg 0#5 v = s := rfl

theorem State.readReg_writeReg_same (r : RegIdx) (v : Word) :
    (s.writeReg r v).readReg r = if r = 0#5 then 0x00000000#32 else v := by
  unfold State.readReg State.writeReg
  split
  · rfl
  · simp

theorem State.readReg_writeReg_other {r k : RegIdx} (h : k ≠ r) (v : Word) :
    (s.writeReg r v).readReg k = s.readReg k := by
  have hn : ¬ r.toNat = k.toNat := fun e => h (BitVec.eq_of_toNat_eq e.symm)
  unfold State.readReg State.writeReg
  by_cases hk : k = 0#5
  · simp [hk]
  · by_cases hr : r = 0#5
    · simp [hr]
    · simp [hk, hr, hn]

theorem State.readReg_writeReg (r k : RegIdx) (v : Word) :
    (s.writeReg r v).readReg k = if k = r then (if r = 0#5 then 0x00000000#32 else v) else s.readReg k := by
  split
  · next h => rw [h, State.readReg_writeReg_same]
  · next h => exact State.readReg_writeReg_other s h v

/-- The slot of the hardwired register is never written. -/
theorem State.writeReg_slot_zero (r : RegIdx) (v : Word) : (s.writeReg r v).regs[0] = s.regs[0] := by
  unfold State.writeReg
  split
  · rfl
  · next h =>
    have : r.toNat ≠ 0 := fun e => h (BitVec.eq_of_toNat_eq e)
    simp [this]

/-! ## Memory reads -/

theorem State.readByte_of_mem {s t : State} (h : t.mem = s.mem) (hc : t.config = s.config) (a : Word) :
    t.readByte a = s.readByte a := by
  simp only [State.readByte, h, hc]

@[simp] theorem State.readByte_writeReg (r : RegIdx) (v : Word) (k : Word) : (s.writeReg r v).readByte k = s.readByte k := by simp [State.readByte]
@[simp] theorem State.readByte_setHi (v : Word) (k : Word) : (s.setHi v).readByte k = s.readByte k := rfl
@[simp] theorem State.readByte_setLo (v : Word) (k : Word) : (s.setLo v).readByte k = s.readByte k := rfl
@[simp] theorem State.readByte_setPc (p : Word) (k : Word) : (s.setPc p).readByte k = s.readByte k := rfl
@[simp] theorem State.readByte_advance (k : Word) : s.advance.readByte k = s.readByte k := rfl
@[simp] theorem State.readByte_countStep (k : Word) : s.countStep.readByte k = s.readByte k := rfl

@[simp] theorem State.readHalf_advance (k : Word) : s.advance.readHalf k = s.readHalf k := rfl
@[simp] theorem State.readHalf_countStep (k : Word) : s.countStep.readHalf k = s.readHalf k := rfl
@[simp] theorem State.readHalf_writeReg (r : RegIdx) (v : Word) (k : Word) : (s.writeReg r v).readHalf k = s.readHalf k := by simp [State.readHalf]
@[simp] theorem State.readWord_advance (k : Word) : s.advance.readWord k = s.readWord k := rfl
@[simp] theorem State.readWord_countStep (k : Word) : s.countStep.readWord k = s.readWord k := rfl
@[simp] theorem State.readWord_writeReg (r : RegIdx) (v : Word) (k : Word) : (s.writeReg r v).readWord k = s.readWord k := by simp [State.readWord]
@[simp] theorem State.fetchWord_writeReg (r : RegIdx) (v : Word) : (s.writeReg r v).fetchWord = s.fetchWord := by simp [State.fetchWord]

theorem State.nextPc_eq : s.nextPc = s.pc + 4#32 := rfl

end Sys2Proof.Machine
end

