-- ==== Sys2Proof/Laws/Effects.lean ====
section
/-! SUPPORT. Laws/Effects.lean: for each shared operation of Machine/Ops.lean, everything it does, in the terms of
Safety.lean; and the canonical form of memory, which every write keeps. Provers cite these and unfold no meaning
twice; the inversion of `exec` is in Laws/Step.lean. -/

namespace Sys2Proof.Machine

variable {i : Instr} {s t : State}

/-! ## Reflexivity of what stays -/

theorem SameControl.refl (s : State) : SameControl s s := ⟨rfl, rfl, rfl⟩

/-! ## One register, accumulators, jumps -/

theorem setsRegister_of_writeResult {r : RegIdx} {v : Word} (h : exec i s = writeResult r v s) :
    SetsRegister i s r v := by
  refine ⟨_, h, ?_, ?_, ⟨?_, ?_⟩, ?_, ?_, ?_, ?_, ?_⟩
  · simp [State.readReg_writeReg_same, heldIn]
  · intro k hk; simp [State.readReg_writeReg_other s hk]
  all_goals simp [SameMemory]

theorem setsHiLo_of_next {hi lo : Word} (h : exec i s = .next ((s.setHi hi).setLo lo).advance) :
    SetsHiLo i s hi lo := by
  refine ⟨_, h, ?_, ?_, ?_, ?_, ?_, ?_, ?_, ?_⟩ <;> simp [SameRegs, SameMemory]

theorem goesTo_of_jumpTo {target : Word} (h : exec i s = jumpTo target s) : GoesTo i s target := by
  refine ⟨_, h, ?_, ?_, ⟨?_, ?_⟩, ?_, ?_, ?_, ?_⟩ <;> simp [SameRegs, SameMemory]

theorem linksAndGoesTo_of_linkAndJump {target : Word} (h : exec i s = linkAndJump target s) :
    LinksAndGoesTo i s target := by
  refine ⟨_, h, ?_, ?_, ?_, ⟨?_, ?_⟩, ?_, ?_, ?_, ?_⟩
  · simp
  · simp [linkReg, State.readReg_writeReg_same, State.nextPc_eq]
  · intro k hk; simp [linkReg, State.readReg_writeReg_other s hk]
  all_goals simp [SameMemory]

/-! ## The check of a data access -/

theorem extractLsb'_low_eq_zero (a : Word) (n : Nat) : a.extractLsb' 0 n = 0#n ↔ a.toNat % 2 ^ n = 0 := by
  rw [← BitVec.toNat_inj]
  simp

@[simp] theorem accessCheck_byte (c : Config) (a : Word) : accessCheck c .byte a = .legal := rfl

theorem accessCheck_word (c : Config) (a : Word) :
    accessCheck c .word a = if a.toNat % 4 = 0 then .legal else .misaligned := by
  have := extractLsb'_low_eq_zero a 2
  simp only [accessCheck]
  split <;> split <;> simp_all

theorem accessCheck_half_even (c : Config) {a : Word} (h : a.toNat % 2 = 0) : accessCheck c .half a = .legal := by
  have := (extractLsb'_low_eq_zero a 1).2 (by simpa using h)
  simp [accessCheck, this]

theorem accessCheck_half_odd (c : Config) {a : Word} (h : a.toNat % 2 = 1) :
    accessCheck c .half a =
      match c.halfAlign with
      | .fatal => .misaligned
      | .permit => if a = 0xFFFFFFFF#32 then .pastTop else .legal := by
  have h0 : ¬ a.extractLsb' 0 1 = 0#1 := by
    rw [extractLsb'_low_eq_zero]
    omega
  have htop : a = 0xFFFFFFFF#32 ↔ a.toNat = 0xFFFFFFFF := by
    rw [← BitVec.toNat_inj]; simp
  have hlt := a.isLt
  simp only [accessCheck, h0, if_false]
  cases c.halfAlign
  · rfl
  · simp only [htop]
    split <;> split <;> first | rfl | omega

/-! ## Memory through the state -/

theorem State.readByte_writeByte (s : State) (a k : Word) (b : Byte) :
    (s.writeByte a b).readByte k = if k = a then b else s.readByte k := by
  simp only [State.readByte, State.writeByte, Memory.get_set, BitVec.toNat_inj]

/-- Four consecutive addresses are distinct, modulo 2^32. -/
theorem addr_add_inj (a : Word) {j k : Nat} (hj : j < 2 ^ 32) (hk : k < 2 ^ 32) :
    a + BitVec.ofNat 32 j = a + BitVec.ofNat 32 k ↔ j = k := by
  constructor
  · intro h
    have h' : BitVec.ofNat 32 j = BitVec.ofNat 32 k := add_left_cancel h
    have := congrArg BitVec.toNat h'
    simp only [BitVec.toNat_ofNat] at this
    omega
  · rintro rfl; rfl

theorem State.readByte_writeHalf (s : State) (a k : Word) (h : Half) :
    (s.writeHalf a h).readByte k =
      if k = a + 1#32 then halfByte s.config.byteOrder h 1
      else if k = a then halfByte s.config.byteOrder h 0 else s.readByte k := by
  simp only [State.writeHalf, State.readByte_writeByte]

theorem State.readByte_writeWord (s : State) (a k w : Word) :
    (s.writeWord a w).readByte k =
      if k = a + 3#32 then wordByte s.config.byteOrder w 3
      else if k = a + 2#32 then wordByte s.config.byteOrder w 2
      else if k = a + 1#32 then wordByte s.config.byteOrder w 1
      else if k = a then wordByte s.config.byteOrder w 0 else s.readByte k := by
  simp only [State.writeWord, State.readByte_writeByte]

/-! ## Stores -/

theorem storesBytes_of_writeByte {a : Word} {b : Byte} (h : exec i s = .next (s.writeByte a b).advance) :
    StoresBytes i s a [b] := by
  refine ⟨_, h, ?_, ?_, ?_, ⟨?_, ?_⟩, ?_, ?_, ?_, ?_⟩
  · intro k x hk
    obtain rfl : k = 0 := by
      rcases k with _ | k
      · rfl
      · simp at hk
    simp at hk
    simp [State.readByte_writeByte, hk]
  · intro k hk
    have := hk 0 (by simp)
    simp at this
    simp [State.readByte_writeByte, this]
  all_goals simp [SameRegs]

theorem storesBytes_of_writeHalf {a : Word} {v : Half} (h : exec i s = .next (s.writeHalf a v).advance) :
    StoresBytes i s a [halfByte s.config.byteOrder v 0, halfByte s.config.byteOrder v 1] := by
  refine ⟨_, h, ?_, ?_, ?_, ⟨?_, ?_⟩, ?_, ?_, ?_, ?_⟩
  · intro k x hk
    rcases k with _ | _ | k
    · simp at hk; simp [State.readByte_writeHalf, hk]
    · simp at hk; simp [State.readByte_writeHalf, hk]
    · simp at hk
  · intro k hk
    have h0 := hk 0 (by simp)
    have h1 := hk 1 (by simp)
    simp at h0 h1
    simp [State.readByte_writeHalf, h0, h1]
  all_goals simp [SameRegs]

theorem storesBytes_of_writeWord {a v : Word} (h : exec i s = .next (s.writeWord a v).advance) :
    StoresBytes i s a (wordBytes s.config.byteOrder v) := by
  refine ⟨_, h, ?_, ?_, ?_, ⟨?_, ?_⟩, ?_, ?_, ?_, ?_⟩
  · intro k x hk
    rcases k with _ | _ | _ | _ | k
    all_goals simp [wordBytes] at hk
    all_goals simp [State.readByte_writeWord, hk]
  · intro k hk
    have h0 := hk 0 (by simp [wordBytes])
    have h1 := hk 1 (by simp [wordBytes])
    have h2 := hk 2 (by simp [wordBytes])
    have h3 := hk 3 (by simp [wordBytes])
    simp at h0 h1 h2 h3
    simp [State.readByte_writeWord, h0, h1, h2, h3]
  all_goals simp [SameRegs]

/-! ## Loads and stores by the outcome of the check -/

theorem loadResult_legal {op : Instr} {w : Width} {a : Word} (h : accessCheck s.config w a = .legal) (rt : RegIdx)
    (v : Word) : loadResult op w a rt v s = writeResult rt v s := by simp [loadResult, h]

theorem loadResult_misaligned {op : Instr} {w : Width} {a : Word} (h : accessCheck s.config w a = .misaligned)
    (rt : RegIdx) (v : Word) : loadResult op w a rt v s = .fault (.dataMisaligned a s.pc s.fetchWord op) := by
  simp [loadResult, h, raise]

theorem loadResult_pastTop {op : Instr} {w : Width} {a : Word} (h : accessCheck s.config w a = .pastTop)
    (rt : RegIdx) (v : Word) : loadResult op w a rt v s = .refused (.accessPastTop a) := by simp [loadResult, h]

theorem storeResult_legal {op : Instr} {w : Width} {a : Word} (h : accessCheck s.config w a = .legal) (u : State) :
    storeResult op w a u s = .next u.advance := by simp [storeResult, h]

theorem storeResult_misaligned {op : Instr} {w : Width} {a : Word} (h : accessCheck s.config w a = .misaligned)
    (u : State) : storeResult op w a u s = .fault (.dataMisaligned a s.pc s.fetchWord op) := by
  simp [storeResult, h, raise]

theorem storeResult_pastTop {op : Instr} {w : Width} {a : Word} (h : accessCheck s.config w a = .pastTop) (u : State) :
    storeResult op w a u s = .refused (.accessPastTop a) := by simp [storeResult, h]

/-- A load that completes wrote one register. -/
theorem loadResult_next {op : Instr} {w : Width} {a : Word} {rt : RegIdx} {v : Word}
    (h : loadResult op w a rt v s = .next t) : t = (s.writeReg rt v).advance := by
  unfold loadResult at h
  split at h
  · simpa [writeResult] using h.symm
  · simp [raise] at h
  · simp at h

/-- A store that completes left its stored state. -/
theorem storeResult_next {op : Instr} {w : Width} {a : Word} {u : State} (h : storeResult op w a u s = .next t) :
    t = u.advance := by
  unfold storeResult at h
  split at h
  · simpa using h.symm
  · simp [raise] at h
  · simp at h

/-! ## The canonical form of memory (20_memory.md R51; log 16) -/

theorem State.memory_wf_writeByte (a : Word) (b : Byte) (h : Memory.wf s.config.memDefault s.mem = true) :
    Memory.wf s.config.memDefault (s.writeByte a b).mem = true := Memory.wf_set b a.isLt h

theorem State.memory_wf_writeHalf (a : Word) (v : Half) (h : Memory.wf s.config.memDefault s.mem = true) :
    Memory.wf s.config.memDefault (s.writeHalf a v).mem = true :=
  State.memory_wf_writeByte (s := s.writeByte _ _) _ _ (State.memory_wf_writeByte _ _ h)

theorem State.memory_wf_writeWord (a v : Word) (h : Memory.wf s.config.memDefault s.mem = true) :
    Memory.wf s.config.memDefault (s.writeWord a v).mem = true :=
  State.memory_wf_writeByte (s := ((s.writeByte _ _).writeByte _ _).writeByte _ _) _ _
    (State.memory_wf_writeByte (s := (s.writeByte _ _).writeByte _ _) _ _
      (State.memory_wf_writeByte (s := s.writeByte _ _) _ _ (State.memory_wf_writeByte _ _ h)))

theorem State.memory_wf_loadSegment {segment : Word × List Byte} (hf : segmentFits segment = true)
    (h : Memory.wf s.config.memDefault s.mem = true) :
    Memory.wf s.config.memDefault (loadSegment s segment).mem = true :=
  Memory.wf_setBytes segment.2 (by simpa [segmentFits] using hf) h

theorem State.memory_wf_loadImage {image : Image} (hf : image.all segmentFits = true)
    (h : Memory.wf s.config.memDefault s.mem = true) :
    Memory.wf s.config.memDefault (loadImage s image).mem = true := by
  induction image generalizing s with
  | nil => exact h
  | cons segment image ih =>
    simp only [List.all_cons, Bool.and_eq_true] at hf
    exact ih (s := loadSegment s segment) hf.2 (State.memory_wf_loadSegment hf.1 h)

theorem State.memory_wf_reset : Memory.wf State.reset.config.memDefault State.reset.mem = true := rfl

end Sys2Proof.Machine
end

