-- ==== Sys2Proof/Laws/PerInstr.lean ====
section
/-! SUPPORT. Laws/PerInstr.lean: lemmas stated once per instruction. Family IgnoredBits: the encoder leaves every bit the
instruction ignores at zero (30_encoding.md R86; log 14). -/

namespace Sys2Proof.Laws.IgnoredBits

/-- The encoding of `i` is zero outside the bits `i` is read in. -/
def Statement (i : Instr) : Prop := ∀ c : Config, encode c i &&& ~~~usedBits i = 0x00000000#32

theorem layout_noShamt (rs rt rd : RegIdx) (f : BitVec 6) : registerWord rs rt rd 0 f &&& ~~~0xFFFFF83F#32 = 0x00000000#32 := by
  apply BitVec.eq_of_getLsbD_eq
  intro k hk
  simp only [registerWord, BitVec.getLsbD_and, BitVec.getLsbD_append]
  interval_cases k <;> simp

theorem layout_noRs (rt rd : RegIdx) (sh : BitVec 5) (f : BitVec 6) : registerWord 0 rt rd sh f &&& ~~~0xFC1FFFFF#32 = 0x00000000#32 := by
  apply BitVec.eq_of_getLsbD_eq
  intro k hk
  simp only [registerWord, BitVec.getLsbD_and, BitVec.getLsbD_append]
  interval_cases k <;> simp

theorem layout_noRdShamt (rs rt : RegIdx) (f : BitVec 6) : registerWord rs rt 0 0 f &&& ~~~0xFFFF003F#32 = 0x00000000#32 := by
  apply BitVec.eq_of_getLsbD_eq
  intro k hk
  simp only [registerWord, BitVec.getLsbD_and, BitVec.getLsbD_append]
  interval_cases k <;> simp

theorem layout_rdOnly (rd : RegIdx) (f : BitVec 6) : registerWord 0 0 rd 0 f &&& ~~~0xFC00F83F#32 = 0x00000000#32 := by
  apply BitVec.eq_of_getLsbD_eq
  intro k hk
  simp only [registerWord, BitVec.getLsbD_and, BitVec.getLsbD_append]
  interval_cases k <;> simp

theorem layout_rsOnly (rs : RegIdx) (f : BitVec 6) : registerWord rs 0 0 0 f &&& ~~~0xFFE0003F#32 = 0x00000000#32 := by
  apply BitVec.eq_of_getLsbD_eq
  intro k hk
  simp only [registerWord, BitVec.getLsbD_and, BitVec.getLsbD_append]
  interval_cases k <;> simp

theorem layout_rsRd (rs rd : RegIdx) (f : BitVec 6) : registerWord rs 0 rd 0 f &&& ~~~0xFFE0F83F#32 = 0x00000000#32 := by
  apply BitVec.eq_of_getLsbD_eq
  intro k hk
  simp only [registerWord, BitVec.getLsbD_and, BitVec.getLsbD_append]
  interval_cases k <;> simp

theorem layout_functOnly (f : BitVec 6) : registerWord 0 0 0 0 f &&& ~~~0xFC00003F#32 = 0x00000000#32 := by
  apply BitVec.eq_of_getLsbD_eq
  intro k hk
  simp only [registerWord, BitVec.getLsbD_and, BitVec.getLsbD_append]
  interval_cases k <;> simp

theorem layout_noRtImm (op : BitVec 6) (rs : RegIdx) (imm : BitVec 16) : immediateWord op rs 0 imm &&& ~~~0xFFE0FFFF#32 = 0x00000000#32 := by
  apply BitVec.eq_of_getLsbD_eq
  intro k hk
  simp only [immediateWord, BitVec.getLsbD_and, BitVec.getLsbD_append]
  interval_cases k <;> simp

theorem layout_noRsImm (op : BitVec 6) (rt : RegIdx) (imm : BitVec 16) : immediateWord op 0 rt imm &&& ~~~0xFC1FFFFF#32 = 0x00000000#32 := by
  apply BitVec.eq_of_getLsbD_eq
  intro k hk
  simp only [immediateWord, BitVec.getLsbD_and, BitVec.getLsbD_append]
  interval_cases k <;> simp

theorem layout_opcodeOnly (op : BitVec 6) : jumpWord op 0 &&& ~~~0xFC000000#32 = 0x00000000#32 := by
  apply BitVec.eq_of_getLsbD_eq
  intro k hk
  simp only [jumpWord, BitVec.getLsbD_and, BitVec.getLsbD_append]
  interval_cases k <;> simp

theorem layout_full (w : Word) : w &&& ~~~0xFFFFFFFF#32 = 0x00000000#32 := by simp

theorem add (rd rs rt : RegIdx) : Statement (.add rd rs rt) := fun _ => layout_noShamt _ _ _ _
theorem addu (rd rs rt : RegIdx) : Statement (.addu rd rs rt) := fun _ => layout_noShamt _ _ _ _
theorem sub (rd rs rt : RegIdx) : Statement (.sub rd rs rt) := fun _ => layout_noShamt _ _ _ _
theorem subu (rd rs rt : RegIdx) : Statement (.subu rd rs rt) := fun _ => layout_noShamt _ _ _ _
theorem addi (rt rs : RegIdx) (imm : BitVec 16) : Statement (.addi rt rs imm) := fun _ => layout_full _
theorem addiu (rt rs : RegIdx) (imm : BitVec 16) : Statement (.addiu rt rs imm) := fun _ => layout_full _
theorem mult (rs rt : RegIdx) : Statement (.mult rs rt) := fun _ => layout_noRdShamt _ _ _
theorem multu (rs rt : RegIdx) : Statement (.multu rs rt) := fun _ => layout_noRdShamt _ _ _
theorem div (rs rt : RegIdx) : Statement (.div rs rt) := fun _ => layout_noRdShamt _ _ _
theorem divu (rs rt : RegIdx) : Statement (.divu rs rt) := fun _ => layout_noRdShamt _ _ _
theorem mfhi (rd : RegIdx) : Statement (.mfhi rd) := fun _ => layout_rdOnly _ _
theorem mthi (rs : RegIdx) : Statement (.mthi rs) := fun _ => layout_rsOnly _ _
theorem mflo (rd : RegIdx) : Statement (.mflo rd) := fun _ => layout_rdOnly _ _
theorem mtlo (rs : RegIdx) : Statement (.mtlo rs) := fun _ => layout_rsOnly _ _
theorem sll (rd rt : RegIdx) (shamt : BitVec 5) : Statement (.sll rd rt shamt) := fun _ => layout_noRs _ _ _ _
theorem srl (rd rt : RegIdx) (shamt : BitVec 5) : Statement (.srl rd rt shamt) := fun _ => layout_noRs _ _ _ _
theorem sra (rd rt : RegIdx) (shamt : BitVec 5) : Statement (.sra rd rt shamt) := fun _ => layout_noRs _ _ _ _
theorem sllv (rd rt rs : RegIdx) : Statement (.sllv rd rt rs) := fun _ => layout_noShamt _ _ _ _
theorem srlv (rd rt rs : RegIdx) : Statement (.srlv rd rt rs) := fun _ => layout_noShamt _ _ _ _
theorem srav (rd rt rs : RegIdx) : Statement (.srav rd rt rs) := fun _ => layout_noShamt _ _ _ _
theorem lui (rt : RegIdx) (imm : BitVec 16) : Statement (.lui rt imm) := fun _ => layout_noRsImm _ _ _
theorem slt (rd rs rt : RegIdx) : Statement (.slt rd rs rt) := fun _ => layout_noShamt _ _ _ _
theorem sltu (rd rs rt : RegIdx) : Statement (.sltu rd rs rt) := fun _ => layout_noShamt _ _ _ _
theorem slti (rt rs : RegIdx) (imm : BitVec 16) : Statement (.slti rt rs imm) := fun _ => layout_full _
theorem sltiu (rt rs : RegIdx) (imm : BitVec 16) : Statement (.sltiu rt rs imm) := fun _ => layout_full _
theorem and (rd rs rt : RegIdx) : Statement (.and rd rs rt) := fun _ => layout_noShamt _ _ _ _
theorem or (rd rs rt : RegIdx) : Statement (.or rd rs rt) := fun _ => layout_noShamt _ _ _ _
theorem xor (rd rs rt : RegIdx) : Statement (.xor rd rs rt) := fun _ => layout_noShamt _ _ _ _
theorem nor (rd rs rt : RegIdx) : Statement (.nor rd rs rt) := fun _ => layout_noShamt _ _ _ _
theorem andi (rt rs : RegIdx) (imm : BitVec 16) : Statement (.andi rt rs imm) := fun _ => layout_full _
theorem ori (rt rs : RegIdx) (imm : BitVec 16) : Statement (.ori rt rs imm) := fun _ => layout_full _
theorem xori (rt rs : RegIdx) (imm : BitVec 16) : Statement (.xori rt rs imm) := fun _ => layout_full _
theorem beq (rs rt : RegIdx) (imm : BitVec 16) : Statement (.beq rs rt imm) := fun _ => layout_full _
theorem bne (rs rt : RegIdx) (imm : BitVec 16) : Statement (.bne rs rt imm) := fun _ => layout_full _
theorem blez (rs : RegIdx) (imm : BitVec 16) : Statement (.blez rs imm) := fun _ => layout_noRtImm _ _ _
theorem bgtz (rs : RegIdx) (imm : BitVec 16) : Statement (.bgtz rs imm) := fun _ => layout_noRtImm _ _ _
theorem j (offset : BitVec 26) : Statement (.j offset) := fun _ => layout_full _
theorem jal (offset : BitVec 26) : Statement (.jal offset) := fun _ => layout_full _
theorem jr (rs : RegIdx) : Statement (.jr rs) := fun _ => layout_rsOnly _ _
theorem jalr (rd rs : RegIdx) : Statement (.jalr rd rs) := fun _ => layout_rsRd _ _ _
theorem lb (rt : RegIdx) (imm : BitVec 16) (rs : RegIdx) : Statement (.lb rt imm rs) := fun _ => layout_full _
theorem lh (rt : RegIdx) (imm : BitVec 16) (rs : RegIdx) : Statement (.lh rt imm rs) := fun _ => layout_full _
theorem lw (rt : RegIdx) (imm : BitVec 16) (rs : RegIdx) : Statement (.lw rt imm rs) := fun _ => layout_full _
theorem lbu (rt : RegIdx) (imm : BitVec 16) (rs : RegIdx) : Statement (.lbu rt imm rs) := fun _ => layout_full _
theorem lhu (rt : RegIdx) (imm : BitVec 16) (rs : RegIdx) : Statement (.lhu rt imm rs) := fun _ => layout_full _
theorem sb (rt : RegIdx) (imm : BitVec 16) (rs : RegIdx) : Statement (.sb rt imm rs) := fun _ => layout_full _
theorem sh (rt : RegIdx) (imm : BitVec 16) (rs : RegIdx) : Statement (.sh rt imm rs) := fun _ => layout_full _
theorem sw (rt : RegIdx) (imm : BitVec 16) (rs : RegIdx) : Statement (.sw rt imm rs) := fun _ => layout_full _
theorem syscall : Statement .syscall := fun _ => layout_functOnly _
theorem brk : Statement .brk := fun _ => layout_functOnly _
theorem trap : Statement .trap := fun _ => layout_opcodeOnly _

end Sys2Proof.Laws.IgnoredBits
end

