-- ==== Sys2Proof/Laws/Runner.lean ====
section
/-! SUPPORT. Laws/Runner.lean: what one move of the runner does, for each way a step can end, and the runs unfolded by one
move or one step. -/

namespace Sys2Proof.Machine

variable {s t : State} {trace : Tracing} {budget : Nat} {lines : List TraceLine}

/-! ## Trace lines -/

@[simp] theorem emitted_off : emitted .off budget s = [] := rfl

theorem emitted_on (h : s.stepsDone < budget) : emitted .on budget s = (traceLine s).toList := if_pos h

theorem emitted_of_traceLine_none (h : traceLine s = none) : emitted trace budget s = [] := by
  cases trace
  · rfl
  · simp [emitted, h]

theorem traceLine_of_fault {f : Fault} (h : step s = .fault f) : traceLine s = none := by simp [traceLine, h]

theorem traceLine_of_refused {q : Refusal} (h : step s = .refused q) : traceLine s = none := by simp [traceLine, h]

/-! ## One move -/

/-- A completed step within the budget. -/
theorem runnerStep_of_next (hr : s.status = .running) (hb : s.stepsDone < budget) (h : step s = .next t) :
    runnerStep budget s = .ok t := by simp [runnerStep, hr, hb, h]

/-- A fatal halt within the budget. -/
theorem runnerStep_of_fault {f : Fault} (hr : s.status = .running) (hb : s.stepsDone < budget) (h : step s = .fault f) :
    runnerStep budget s = .ok { s with status := .fatal f } := by simp [runnerStep, hr, hb, h]

/-- The budget is spent. -/
theorem runnerStep_of_budget (hr : s.status = .running) (hb : budget ≤ s.stepsDone) :
    runnerStep budget s = .ok { s with status := .budgetReached } := by
  simp [runnerStep, hr, Nat.not_lt.2 hb]

theorem runnerMove_of_step (h : runnerStep budget s = .ok t) :
    runnerMove trace budget ⟨s, lines⟩ = .ok ⟨t, lines ++ emitted trace budget s⟩ := by simp [runnerMove, h]

/-! ## Runs -/

theorem runFor_succ (n : Nat) (h : runnerStep budget s = .ok t) :
    runFor trace budget (n + 1) ⟨s, lines⟩ = runFor trace budget n ⟨t, lines ++ emitted trace budget s⟩ := by
  simp [runFor, runnerMove_of_step h]

/-- `n + 1` steps of the core are one step and `n` more. -/
theorem coreRun_succ (n : Nat) (h : step s = .next t) : Sys2Proof.core.run (n + 1) s = Sys2Proof.core.run n t := by
  have h' : Sys2Proof.core.step s = .next t := h
  simp only [Host.Core.run, h']

end Sys2Proof.Machine
end

