-- ==== Sys2Proof/Laws/Step.lean ====
section
/-! SUPPORT. Laws/Step.lean: everything `exec` can do when it answers a next state (one inversion lemma), and everything
`step` can do; invariants and frames are read off these. -/

namespace Sys2Proof.Machine

variable {i : Instr} {s t : State}

/-! ## The shared operations, inverted -/

theorem writeResult_next {r : RegIdx} {v : Word} (h : writeResult r v s = .next t) : t = (s.writeReg r v).advance := by
  simpa [writeResult] using h.symm

theorem writeHiLo_next {hi lo : Word} (h : writeHiLo hi lo s = .next t) : t = ((s.setHi hi).setLo lo).advance := by
  simpa [writeHiLo] using h.symm

theorem jumpTo_next {target : Word} (h : jumpTo target s = .next t) : t = s.setPc target := by
  simpa [jumpTo] using h.symm

theorem linkAndJump_next {target : Word} (h : linkAndJump target s = .next t) :
    t = (s.writeReg linkReg s.nextPc).setPc target := by
  simpa [linkAndJump] using h.symm

theorem execDiv_next {rs rt : RegIdx} (h : execDiv rs rt s = .next t) :
    ∃ hi lo, t = ((s.setHi hi).setLo lo).advance := by
  simp only [execDiv] at h
  split at h
  · simp [raise] at h
  · split at h
    · split at h
      · simp [raise] at h
      · exact ⟨_, _, writeHiLo_next h⟩
    · exact ⟨_, _, writeHiLo_next h⟩

theorem execDivu_next {rs rt : RegIdx} (h : execDivu rs rt s = .next t) :
    ∃ hi lo, t = ((s.setHi hi).setLo lo).advance := by
  simp only [execDivu] at h
  split at h
  · simp [raise] at h
  · exact ⟨_, _, writeHiLo_next h⟩

theorem execJalr_next {rd rs : RegIdx} (h : execJalr rd rs s = .next t) :
    t = (s.writeReg linkReg s.nextPc).setPc (s.readReg rs) := by
  simp only [execJalr] at h
  split at h
  · exact linkAndJump_next h
  · split at h
    · exact linkAndJump_next h
    · simp at h

/-! ## Alignment of the computed targets (46_branch_jump.md R209) -/

theorem nextPc_aligned (h : s.pc.toNat % 4 = 0) : s.nextPc.toNat % 4 = 0 := by
  simp only [State.nextPc, BitVec.toNat_add, BitVec.toNat_ofNat]
  omega

theorem branchTarget_aligned {pc : Word} (h : pc.toNat % 4 = 0) (imm : BitVec 16) :
    (branchTarget pc imm).toNat % 4 = 0 := by
  simp only [branchTarget, BitVec.toNat_add, BitVec.toNat_shiftLeft, BitVec.toNat_ofNat, Nat.shiftLeft_eq]
  omega

theorem jumpTarget_aligned (pc : Word) (offset : BitVec 26) : (jumpTarget pc offset).toNat % 4 = 0 := by
  have h : (jumpTarget pc offset).extractLsb' 0 2 = 0#2 := by
    ext k hk
    simp only [jumpTarget, BitVec.getElem_extractLsb', BitVec.getLsbD_append]
    interval_cases k <;> simp
  simpa using (extractLsb'_low_eq_zero _ 2).1 h

theorem branchIf_next {c : Bool} {imm : BitVec 16} (h : branchIf c imm s = .next t) :
    ∃ target, t = s.setPc target ∧ (s.pc.toNat % 4 = 0 → target.toNat % 4 = 0) := by
  refine ⟨_, jumpTo_next h, fun ha => ?_⟩
  split
  · exact branchTarget_aligned ha imm
  · exact nextPc_aligned ha

/-! ## The inversion of `exec` -/

/-- HI may be written by `i`. -/
def MayWriteHi (i : Instr) : Prop :=
  ∃ rs rt, i = .mult rs rt ∨ i = .multu rs rt ∨ i = .div rs rt ∨ i = .divu rs rt ∨ i = .mthi rs

/-- LO may be written by `i`. -/
def MayWriteLo (i : Instr) : Prop :=
  ∃ rs rt, i = .mult rs rt ∨ i = .multu rs rt ∨ i = .div rs rt ∨ i = .divu rs rt ∨ i = .mtlo rs

/-- The state a store leaves: its bytes written at the effective address, and pc advanced. -/
def Stored (s : State) (rs : RegIdx) (imm : BitVec 16) (n : Nat) (t : State) : Prop :=
  (n = 1 ∧ ∃ v, t = (s.writeByte (effectiveAddress (s.readReg rs) imm) v).advance) ∨
  (n = 2 ∧ ∃ v, t = (s.writeHalf (effectiveAddress (s.readReg rs) imm) v).advance) ∨
  (n = 4 ∧ ∃ v, t = (s.writeWord (effectiveAddress (s.readReg rs) imm) v).advance)

/-- Everything a completed instruction can have done: written one register; written accumulators (or, a no-operation,
nothing); gone to a target; linked and gone to a target; or stored. -/
theorem exec_next_cases (h : exec i s = .next t) :
    (∃ r v, destination i = some r ∧ isTransfer i = false ∧ storeFootprint i = none ∧ t = (s.writeReg r v).advance) ∨
    (∃ hi lo, destination i = none ∧ isTransfer i = false ∧ storeFootprint i = none ∧
      t = ((s.setHi hi).setLo lo).advance ∧ (hi = s.hi ∨ MayWriteHi i) ∧ (lo = s.lo ∨ MayWriteLo i)) ∨
    (∃ target, destination i = none ∧ isTransfer i = true ∧ storeFootprint i = none ∧ t = s.setPc target ∧
      (jumpsToRegister i = true ∨ (s.pc.toNat % 4 = 0 → target.toNat % 4 = 0))) ∨
    (∃ target, destination i = some linkReg ∧ isTransfer i = true ∧ storeFootprint i = none ∧
      t = (s.writeReg linkReg s.nextPc).setPc target ∧
      (jumpsToRegister i = true ∨ (s.pc.toNat % 4 = 0 → target.toNat % 4 = 0))) ∨
    (∃ rs imm n, destination i = none ∧ isTransfer i = false ∧ storeFootprint i = some (rs, imm, n) ∧
      Stored s rs imm n t) := by
  cases i
  case add | addu | sub | subu | addi | addiu | sll | srl | sra | sllv | srlv | srav | lui | slt | sltu | slti | sltiu |
      and | or | xor | nor | andi | ori | xori | mfhi | mflo =>
    exact .inl ⟨_, _, rfl, rfl, rfl, writeResult_next h⟩
  case lb | lh | lw | lbu | lhu =>
    simp only [exec, execLb, execLh, execLw, execLbu, execLhu] at h
    exact .inl ⟨_, _, rfl, rfl, rfl, loadResult_next h⟩
  case mult rs rt =>
    exact .inr (.inl ⟨_, _, rfl, rfl, rfl, writeHiLo_next h, .inr ⟨rs, rt, .inl rfl⟩, .inr ⟨rs, rt, .inl rfl⟩⟩)
  case multu rs rt =>
    exact .inr (.inl ⟨_, _, rfl, rfl, rfl, writeHiLo_next h, .inr ⟨rs, rt, by simp⟩, .inr ⟨rs, rt, by simp⟩⟩)
  case div rs rt =>
    obtain ⟨hi, lo, e⟩ := execDiv_next h
    exact .inr (.inl ⟨hi, lo, rfl, rfl, rfl, e, .inr ⟨rs, rt, by simp⟩, .inr ⟨rs, rt, by simp⟩⟩)
  case divu rs rt =>
    obtain ⟨hi, lo, e⟩ := execDivu_next h
    exact .inr (.inl ⟨hi, lo, rfl, rfl, rfl, e, .inr ⟨rs, rt, by simp⟩, .inr ⟨rs, rt, by simp⟩⟩)
  case mthi rs =>
    simp only [exec, execMthi, Host.Outcome.next.injEq] at h
    exact .inr (.inl ⟨s.readReg rs, s.lo, rfl, rfl, rfl, h.symm, .inr ⟨rs, rs, by simp⟩, .inl rfl⟩)
  case mtlo rs =>
    simp only [exec, execMtlo, Host.Outcome.next.injEq] at h
    exact .inr (.inl ⟨s.hi, s.readReg rs, rfl, rfl, rfl, h.symm, .inl rfl, .inr ⟨rs, rs, by simp⟩⟩)
  case syscall =>
    simp only [exec, execSyscall, Host.Outcome.next.injEq] at h
    exact .inr (.inl ⟨s.hi, s.lo, rfl, rfl, rfl, h.symm, .inl rfl, .inl rfl⟩)
  case brk =>
    simp only [exec, execBreak, Host.Outcome.next.injEq] at h
    exact .inr (.inl ⟨s.hi, s.lo, rfl, rfl, rfl, h.symm, .inl rfl, .inl rfl⟩)
  case trap =>
    simp only [exec, execTrap, Host.Outcome.next.injEq] at h
    exact .inr (.inl ⟨s.hi, s.lo, rfl, rfl, rfl, h.symm, .inl rfl, .inl rfl⟩)
  case beq | bne | blez | bgtz =>
    obtain ⟨target, e, ha⟩ := branchIf_next h
    exact .inr (.inr (.inl ⟨target, rfl, rfl, rfl, e, .inr ha⟩))
  case j offset =>
    exact .inr (.inr (.inl ⟨_, rfl, rfl, rfl, jumpTo_next h, .inr fun _ => jumpTarget_aligned _ _⟩))
  case jr => exact .inr (.inr (.inl ⟨_, rfl, rfl, rfl, jumpTo_next h, .inl rfl⟩))
  case jal offset =>
    exact .inr (.inr (.inr (.inl ⟨_, rfl, rfl, rfl, linkAndJump_next h, .inr fun _ => jumpTarget_aligned _ _⟩)))
  case jalr => exact .inr (.inr (.inr (.inl ⟨_, rfl, rfl, rfl, execJalr_next h, .inl rfl⟩)))
  case sb rt imm rs =>
    simp only [exec, execSb] at h
    exact .inr (.inr (.inr (.inr ⟨rs, imm, 1, rfl, rfl, rfl, .inl ⟨rfl, _, storeResult_next h⟩⟩)))
  case sh rt imm rs =>
    simp only [exec, execSh] at h
    exact .inr (.inr (.inr (.inr ⟨rs, imm, 2, rfl, rfl, rfl, .inr (.inl ⟨rfl, _, storeResult_next h⟩)⟩)))
  case sw rt imm rs =>
    simp only [exec, execSw] at h
    exact .inr (.inr (.inr (.inr ⟨rs, imm, 4, rfl, rfl, rfl, .inr (.inr ⟨rfl, _, storeResult_next h⟩)⟩)))

/-! ## The step -/

theorem pcAligned_iff (s : State) : s.pcAligned = true ↔ s.pc.toNat % 4 = 0 := by
  simp only [State.pcAligned, decide_eq_true_eq]
  simpa using extractLsb'_low_eq_zero s.pc 2

theorem fetchDecode_aligned (ha : s.pc.toNat % 4 = 0) :
    fetchDecode s =
      match decodeWord s.config s.fetchWord with
      | .ok i => .ok i
      | .error _ => .error (.decodeError s.pc s.fetchWord) := by
  exact if_pos ((pcAligned_iff s).2 ha)

theorem fetchDecode_misaligned (ha : s.pc.toNat % 4 ≠ 0) : fetchDecode s = .error (.fetchMisaligned s.pc) := by
  have : s.pcAligned = false := by
    simpa [Bool.not_eq_true] using fun e => ha ((pcAligned_iff s).1 e)
  simp [fetchDecode, this]

/-- When Fetch and Decode give an instruction: the pc is aligned and the word there decodes to it. -/
theorem fetchDecode_ok (h : fetchDecode s = .ok i) :
    s.pc.toNat % 4 = 0 ∧ decodeWord s.config s.fetchWord = .ok i := by
  by_cases ha : s.pc.toNat % 4 = 0
  · refine ⟨ha, ?_⟩
    rw [fetchDecode_aligned ha] at h
    split at h <;> simp_all
  · rw [fetchDecode_misaligned ha] at h
    simp at h

/-- A running step is the decoded instruction's effect, counted. -/
theorem step_running (hr : s.status = .running) :
    step s =
      match fetchDecode s with
      | .ok i => countCompleted (exec i s)
      | .error f => .fault f := by
  cases s
  cases hr
  rfl

/-- Everything a completed step can have done. -/
theorem step_next_cases (h : step s = .next t) :
    s.status = .running ∧ s.pc.toNat % 4 = 0 ∧
      ∃ i u, decodeWord s.config s.fetchWord = .ok i ∧ exec i s = .next u ∧ t = u.countStep := by
  have hr : s.status = .running := by
    cases hs : s.status <;> simp_all [step]
  rw [step_running hr] at h
  split at h
  · next i hi =>
    obtain ⟨ha, hd⟩ := fetchDecode_ok hi
    refine ⟨hr, ha, i, ?_⟩
    cases he : exec i s with
    | next u => exact ⟨u, hd, rfl, by simpa [he, countCompleted] using h.symm⟩
    | fault f => simp [he, countCompleted] at h
    | refused q => simp [he, countCompleted] at h
  · simp at h

end Sys2Proof.Machine
end

