-- ==== Sys2Proof/Tests/Slice0.lean ====
section
/-! SUPPORT. Tests/Slice0.lean: the well-formedness checks refuse ill-formed terms; decoding of every constructor and one
step per instruction against the vectors of spec/95_test_vectors.md (V<n>: "derived from the rules", not measured); and
for each obligation with hypotheses a state and operands that meet them. -/

namespace Sys2Proof.Tests

open Sys2Proof Sys2Proof.Machine

/-! ## Helpers -/

/-- A reset state with some registers and the accumulators set. -/
def build (c : Config) (pc : Word) (regs : List (RegIdx × Word)) (hi lo : Word := 0x00000000#32) : State :=
  ((regs.foldl (fun s r => s.writeReg r.1 r.2) (State.resetWith c pc)).setHi hi).setLo lo

/-- The state before a vector's step: the instruction word `w` stands at pc. -/
def start (pc : Word) (w : Nat) (regs : List (RegIdx × Word)) (hi lo : Word := 0x00000000#32) : State :=
  (build launchConfig pc regs hi lo).withFetchWord 32 w

/-- Bytes laid down from `a` on. -/
def holding (s : State) (a : Word) (bytes : List Byte) : State := loadSegment s (a, bytes)

/-- A projection of the next state. -/
def seen {α : Type} (r : Result) (f : State → α) : Option α :=
  match r with
  | .next t => some (f t)
  | .fault _ => none
  | .refused _ => none

/-- A projection of the state after one step. -/
def after {α : Type} (s : State) (f : State → α) : Option α := seen (step s) f

/-- The fatal halt a result is. -/
def fault? (r : Result) : Option Fault :=
  match r with
  | .next _ => none
  | .fault f => some f
  | .refused _ => none

/-- The fatal halt of one step. -/
def fatalHalt (s : State) : Option Fault := fault? (step s)

/-- The refusal a result is. -/
def refusal? (r : Result) : Option Refusal :=
  match r with
  | .next _ => none
  | .fault _ => none
  | .refused q => some q

theorem next_of_seen {α : Type} {r : Result} {f : State → α} {v : α} (h : seen r f = some v) :
    ∃ t, r = .next t ∧ f t = v := by
  cases r <;> simp_all [seen]

theorem fault_of_fault? {r : Result} {f : Fault} (h : fault? r = some f) : r = .fault f := by
  cases r <;> simp_all [fault?]

theorem refused_of_refusal? {r : Result} {q : Refusal} (h : refusal? r = some q) : r = .refused q := by
  cases r <;> simp_all [refusal?]

/-- The spec's defaults, changed in one parameter. -/
def bigConfig : Config := { launchConfig with byteOrder := .big }
def permitConfig : Config := { launchConfig with halfAlign := .permit }
def wrapConfig : Config := { launchConfig with divOverflow := .wrap }
def refuseConfig : Config := { launchConfig with jalrRd := .refuse }

/-! ## Well-formedness -/

/-- A TRAP_OPCODE that is the opcode of `lw`, or that of the Register-type family, is refused. -/
theorem test_wellFormed_trapOpcode :
    Config.wellFormed { launchConfig with trapOpcode := 0x23#6 } = false ∧
    Config.wellFormed { launchConfig with trapOpcode := 0x00#6 } = false ∧
    Config.wellFormed launchConfig = true := by decide

/-- Under JALR_RD = refuse a `jalr` that names a link register other than x[31] is refused. -/
theorem test_wellFormed_jalr :
    Instr.wellFormed refuseConfig (.jalr 5#5 1#5) = false ∧
    Instr.wellFormed refuseConfig (.jalr 31#5 1#5) = true ∧
    Instr.wellFormed launchConfig (.jalr 5#5 1#5) = true := by decide

/-! ## Decoding: words from the spec's encodings (30_encoding.md R82 to R92) -/

theorem test_decode_arithmetic :
    decodeTableWord 32 0x00221820 = some (.add 3#5 1#5 2#5) ∧
    decodeTableWord 32 0x00221821 = some (.addu 3#5 1#5 2#5) ∧
    decodeTableWord 32 0x00221822 = some (.sub 3#5 1#5 2#5) ∧
    decodeTableWord 32 0x00221823 = some (.subu 3#5 1#5 2#5) ∧
    decodeTableWord 32 0x2022FFFF = some (.addi 2#5 1#5 0xFFFF#16) ∧
    decodeTableWord 32 0x24228000 = some (.addiu 2#5 1#5 0x8000#16) := by decide

theorem test_decode_muldiv :
    decodeTableWord 32 0x00220018 = some (.mult 1#5 2#5) ∧
    decodeTableWord 32 0x00220019 = some (.multu 1#5 2#5) ∧
    decodeTableWord 32 0x0022001A = some (.div 1#5 2#5) ∧
    decodeTableWord 32 0x0022001B = some (.divu 1#5 2#5) ∧
    decodeTableWord 32 0x00001810 = some (.mfhi 3#5) ∧
    decodeTableWord 32 0x00200011 = some (.mthi 1#5) ∧
    decodeTableWord 32 0x00001812 = some (.mflo 3#5) ∧
    decodeTableWord 32 0x00200013 = some (.mtlo 1#5) := by decide

theorem test_decode_shift :
    decodeTableWord 32 0x00021900 = some (.sll 3#5 2#5 4#5) ∧
    decodeTableWord 32 0x00021FC2 = some (.srl 3#5 2#5 31#5) ∧
    decodeTableWord 32 0x00021843 = some (.sra 3#5 2#5 1#5) ∧
    decodeTableWord 32 0x00221804 = some (.sllv 3#5 2#5 1#5) ∧
    decodeTableWord 32 0x00221806 = some (.srlv 3#5 2#5 1#5) ∧
    decodeTableWord 32 0x00221807 = some (.srav 3#5 2#5 1#5) := by decide

theorem test_decode_lui_compare :
    decodeTableWord 32 0x3C081234 = some (.lui 8#5 0x1234#16) ∧
    decodeTableWord 32 0x0022182A = some (.slt 3#5 1#5 2#5) ∧
    decodeTableWord 32 0x0022182B = some (.sltu 3#5 1#5 2#5) ∧
    decodeTableWord 32 0x28220005 = some (.slti 2#5 1#5 0x0005#16) ∧
    decodeTableWord 32 0x2C227FFF = some (.sltiu 2#5 1#5 0x7FFF#16) := by decide

theorem test_decode_bitwise :
    decodeTableWord 32 0x00221824 = some (.and 3#5 1#5 2#5) ∧
    decodeTableWord 32 0x00221825 = some (.or 3#5 1#5 2#5) ∧
    decodeTableWord 32 0x00221826 = some (.xor 3#5 1#5 2#5) ∧
    decodeTableWord 32 0x00221827 = some (.nor 3#5 1#5 2#5) ∧
    decodeTableWord 32 0x3022FF00 = some (.andi 2#5 1#5 0xFF00#16) ∧
    decodeTableWord 32 0x34225678 = some (.ori 2#5 1#5 0x5678#16) ∧
    decodeTableWord 32 0x382200FF = some (.xori 2#5 1#5 0x00FF#16) := by decide

theorem test_decode_branch_jump :
    decodeTableWord 32 0x10220004 = some (.beq 1#5 2#5 0x0004#16) ∧
    decodeTableWord 32 0x1420FFFD = some (.bne 1#5 0#5 0xFFFD#16) ∧
    decodeTableWord 32 0x18200002 = some (.blez 1#5 0x0002#16) ∧
    decodeTableWord 32 0x1C20FFFE = some (.bgtz 1#5 0xFFFE#16) ∧
    decodeTableWord 32 0x08001000 = some (.j 0x0001000#26) ∧
    decodeTableWord 32 0x0C100040 = some (.jal 0x0100040#26) ∧
    decodeTableWord 32 0x03E00008 = some (.jr 31#5) ∧
    decodeTableWord 32 0x00202809 = some (.jalr 5#5 1#5) := by decide

theorem test_decode_load_store :
    decodeTableWord 32 0x80220003 = some (.lb 2#5 0x0003#16 1#5) ∧
    decodeTableWord 32 0x84220006 = some (.lh 2#5 0x0006#16 1#5) ∧
    decodeTableWord 32 0x8C22FFFC = some (.lw 2#5 0xFFFC#16 1#5) ∧
    decodeTableWord 32 0x90220003 = some (.lbu 2#5 0x0003#16 1#5) ∧
    decodeTableWord 32 0x94220002 = some (.lhu 2#5 0x0002#16 1#5) ∧
    decodeTableWord 32 0xA0220001 = some (.sb 2#5 0x0001#16 1#5) ∧
    decodeTableWord 32 0xA4220002 = some (.sh 2#5 0x0002#16 1#5) ∧
    decodeTableWord 32 0xAC02FFFC = some (.sw 2#5 0xFFFC#16 0#5) := by decide

theorem test_decode_special :
    decodeTableWord 32 0x03FFFFCC = some .syscall ∧
    decodeTableWord 32 0x0000000D = some .brk ∧
    decodeTableWord 32 0x6BFFFFFF = some .trap := by decide

/-- Opcodes 0x01, 0x10, 0x22, 0x3F and function codes 0x01, 0x0A are unassigned (30_encoding.md R93). -/
theorem test_decode_unassigned :
    decodeTableWord 32 0x04110000 = none ∧ decodeTableWord 32 0x40806000 = none ∧
    decodeTableWord 32 0x88220000 = none ∧ decodeTableWord 32 0xFFFFFFFF = none ∧
    decodeTableWord 32 0x00000001 = none ∧ decodeTableWord 32 0x0000000A = none := by decide

/-- Fewer than four bytes are no instruction. -/
theorem test_decode_short : decodeBytes launchConfig [0x20#8, 0x18#8, 0x22#8] = .error (.tooFewBytes 3) := by rfl

/-! ## One step: the vectors -/

/-! ### 41_arithmetic.md -/

theorem test_add_V1 : after (start 0x00400000#32 0x00221820 [(1#5, 0x00000005#32), (2#5, 0xFFFFFFFD#32)])
    (fun t => (t.readReg 3#5, t.pc))
    = some (0x00000002#32, 0x00400004#32) := by decide

theorem test_add_V7 : after (start 0x00400000#32 0x00221960 [(1#5, 0x00000005#32), (2#5, 0x00000006#32)])
    (fun t => (t.readReg 3#5, t.pc))
    = some (0x0000000B#32, 0x00400004#32) := by decide

theorem test_addu_V4 : after (start 0x00400000#32 0x00221821 [(1#5, 0xFFFFFFFF#32), (2#5, 0x00000001#32), (3#5, 0x00000055#32)])
    (fun t => (t.readReg 3#5, t.pc))
    = some (0x00000000#32, 0x00400004#32) := by decide

theorem test_addu_V108 : after (start 0xFFFFFFFC#32 0x00221821 [(1#5, 0x00000001#32), (2#5, 0x00000002#32)])
    (fun t => (t.readReg 3#5, t.pc))
    = some (0x00000003#32, 0x00000000#32) := by decide

theorem test_sub_V8 : after (start 0x00400000#32 0x00221822 [(1#5, 0x00000005#32), (2#5, 0x00000007#32)])
    (fun t => (t.readReg 3#5, t.pc))
    = some (0xFFFFFFFE#32, 0x00400004#32) := by decide

theorem test_sub_V9 : after (start 0x00400000#32 0x00221822 [(1#5, 0x80000000#32), (2#5, 0x00000001#32)])
    (fun t => (t.readReg 3#5, t.pc))
    = some (0x7FFFFFFF#32, 0x00400004#32) := by decide

theorem test_subu_V10 : after (start 0x00400000#32 0x00221823 [(1#5, 0x00000000#32), (2#5, 0x00000001#32)])
    (fun t => (t.readReg 3#5, t.pc))
    = some (0xFFFFFFFF#32, 0x00400004#32) := by decide

theorem test_addi_V12 : after (start 0x00400000#32 0x2022FFFF [(1#5, 0x00000000#32)])
    (fun t => (t.readReg 2#5, t.pc))
    = some (0xFFFFFFFF#32, 0x00400004#32) := by decide

theorem test_addi_V13 : after (start 0x00400000#32 0x20220001 [(1#5, 0x7FFFFFFF#32)])
    (fun t => (t.readReg 2#5, t.pc))
    = some (0x80000000#32, 0x00400004#32) := by decide

theorem test_addiu_V15 : after (start 0x00400000#32 0x24228000 [(1#5, 0x00000000#32)])
    (fun t => (t.readReg 2#5, t.pc))
    = some (0xFFFF8000#32, 0x00400004#32) := by decide

/-! ### 42_muldiv_hilo.md -/

theorem test_mult_V17 : after (start 0x00400000#32 0x00220018 [(1#5, 0xFFFFFFFF#32), (2#5, 0x00000005#32)])
    (fun t => (t.hi, t.lo, t.pc))
    = some (0xFFFFFFFF#32, 0xFFFFFFFB#32, 0x00400004#32) := by decide

theorem test_mult_V19 : after (start 0x00400000#32 0x00220018 [(1#5, 0x80000000#32), (2#5, 0x80000000#32)] 0x00000001#32 0x00000001#32)
    (fun t => (t.hi, t.lo, t.pc))
    = some (0x40000000#32, 0x00000000#32, 0x00400004#32) := by decide

theorem test_multu_V18 : after (start 0x00400000#32 0x00220019 [(1#5, 0xFFFFFFFF#32), (2#5, 0x00000005#32)])
    (fun t => (t.hi, t.lo, t.pc))
    = some (0x00000004#32, 0xFFFFFFFB#32, 0x00400004#32) := by decide

theorem test_multu_V23 : after (start 0x00400000#32 0x00220019 [(1#5, 0xFFFFFFFF#32), (2#5, 0xFFFFFFFF#32)])
    (fun t => (t.hi, t.lo, t.pc))
    = some (0xFFFFFFFE#32, 0x00000001#32, 0x00400004#32) := by decide

theorem test_div_V28 : after (start 0x00400000#32 0x0022001A [(1#5, 0xFFFFFFF9#32), (2#5, 0x00000002#32)])
    (fun t => (t.hi, t.lo, t.pc))
    = some (0xFFFFFFFF#32, 0xFFFFFFFD#32, 0x00400004#32) := by decide

theorem test_div_V29 : after (start 0x00400000#32 0x0022001A [(1#5, 0x00000007#32), (2#5, 0xFFFFFFFE#32)])
    (fun t => (t.hi, t.lo, t.pc))
    = some (0x00000001#32, 0xFFFFFFFD#32, 0x00400004#32) := by decide

theorem test_divu_V40 : after (start 0x00400000#32 0x0022001B [(1#5, 0xFFFFFFF9#32), (2#5, 0x00000002#32)])
    (fun t => (t.hi, t.lo, t.pc))
    = some (0x00000001#32, 0x7FFFFFFC#32, 0x00400004#32) := by decide

theorem test_divu_V41 : fatalHalt (start 0x00400000#32 0x0022001B [(1#5, 0x00000005#32), (2#5, 0x00000000#32)] 0x00000011#32 0x00000022#32) = some (.divideByZero 0x00400000#32 0x0022001B#32 (.divu 1#5 2#5)) := by decide

theorem test_mfhi_V42 : after (start 0x00400000#32 0x00001810 [] 0xFFFFFFFF#32 0x00000005#32)
    (fun t => (t.readReg 3#5, t.pc))
    = some (0xFFFFFFFF#32, 0x00400004#32) := by decide

theorem test_mfhi_V47 : after (start 0x00400000#32 0x00000010 [] 0x00000009#32 0x00000000#32)
    (fun t => (t.readReg 0#5, t.pc))
    = some (0x00000000#32, 0x00400004#32) := by decide

theorem test_mthi_V45 : after (start 0x00400000#32 0x00200011 [(1#5, 0x12345678#32)] 0x00000000#32 0x00000005#32)
    (fun t => (t.hi, t.pc))
    = some (0x12345678#32, 0x00400004#32) := by decide

theorem test_mflo_V43 : after (start 0x00400000#32 0x00001812 [] 0xFFFFFFFF#32 0xFFFFFFFB#32)
    (fun t => (t.readReg 3#5, t.pc))
    = some (0xFFFFFFFB#32, 0x00400004#32) := by decide

theorem test_mtlo_V46 : after (start 0x00400000#32 0x00200013 [(1#5, 0x0000002A#32)] 0x00000005#32 0x00000000#32)
    (fun t => (t.lo, t.pc))
    = some (0x0000002A#32, 0x00400004#32) := by decide

/-! ### 43_shift.md -/

theorem test_sll_V49 : after (start 0x00400000#32 0x00021FC0 [(2#5, 0xFFFFFFFF#32)])
    (fun t => (t.readReg 3#5, t.pc))
    = some (0x80000000#32, 0x00400004#32) := by decide

theorem test_sll_V52 : after (start 0x00400000#32 0x00E21900 [(2#5, 0x00000001#32), (7#5, 0xFFFFFFFF#32)])
    (fun t => (t.readReg 3#5, t.pc))
    = some (0x00000010#32, 0x00400004#32) := by decide

theorem test_srl_V53 : after (start 0x00400000#32 0x00021902 [(2#5, 0x80000000#32)])
    (fun t => (t.readReg 3#5, t.pc))
    = some (0x08000000#32, 0x00400004#32) := by decide

theorem test_sra_V55 : after (start 0x00400000#32 0x00021903 [(2#5, 0x80000000#32)])
    (fun t => (t.readReg 3#5, t.pc))
    = some (0xF8000000#32, 0x00400004#32) := by decide

theorem test_sllv_V59 : after (start 0x00400000#32 0x00221804 [(1#5, 0x00000021#32), (2#5, 0x00000003#32)])
    (fun t => (t.readReg 3#5, t.pc))
    = some (0x00000006#32, 0x00400004#32) := by decide

theorem test_srlv_V63 : after (start 0x00400000#32 0x00221806 [(1#5, 0x00000024#32), (2#5, 0xF0000000#32)])
    (fun t => (t.readReg 3#5, t.pc))
    = some (0x0F000000#32, 0x00400004#32) := by decide

theorem test_srav_V64 : after (start 0x00400000#32 0x00221807 [(1#5, 0x00000004#32), (2#5, 0xF0000000#32)])
    (fun t => (t.readReg 3#5, t.pc))
    = some (0xFF000000#32, 0x00400004#32) := by decide

theorem test_srav_V65 : after (start 0x00400000#32 0x00221807 [(1#5, 0xFFFFFFFF#32), (2#5, 0x80000000#32)])
    (fun t => (t.readReg 3#5, t.pc))
    = some (0xFFFFFFFF#32, 0x00400004#32) := by decide

/-! ### 44_lui_compare.md -/

theorem test_lui_V66 : after (start 0x00400000#32 0x3C081234 [(8#5, 0xFFFFFFFF#32)])
    (fun t => (t.readReg 8#5, t.pc))
    = some (0x12340000#32, 0x00400004#32) := by decide

theorem test_slt_V69 : after (start 0x00400000#32 0x0022182A [(1#5, 0xFFFFFFFD#32), (2#5, 0x00000005#32)])
    (fun t => (t.readReg 3#5, t.pc))
    = some (0x00000001#32, 0x00400004#32) := by decide

theorem test_slt_V72 : after (start 0x00400000#32 0x0022182A [(1#5, 0x7FFFFFFF#32), (2#5, 0x80000000#32), (3#5, 0x00000077#32)])
    (fun t => (t.readReg 3#5, t.pc))
    = some (0x00000000#32, 0x00400004#32) := by decide

theorem test_sltu_V70 : after (start 0x00400000#32 0x0022182B [(1#5, 0xFFFFFFFD#32), (2#5, 0x00000005#32), (3#5, 0x00000077#32)])
    (fun t => (t.readReg 3#5, t.pc))
    = some (0x00000000#32, 0x00400004#32) := by decide

theorem test_sltu_V74 : after (start 0x00400000#32 0x0002182B [(2#5, 0x80000000#32)])
    (fun t => (t.readReg 3#5, t.pc))
    = some (0x00000001#32, 0x00400004#32) := by decide

theorem test_slti_V76 : after (start 0x00400000#32 0x2822FFFF [(1#5, 0xFFFFFFFE#32)])
    (fun t => (t.readReg 2#5, t.pc))
    = some (0x00000001#32, 0x00400004#32) := by decide

theorem test_slti_V77 : after (start 0x00400000#32 0x2822FFFF [(1#5, 0x00000000#32), (2#5, 0x00000077#32)])
    (fun t => (t.readReg 2#5, t.pc))
    = some (0x00000000#32, 0x00400004#32) := by decide

theorem test_sltiu_V78 : after (start 0x00400000#32 0x2C22FFFF [(1#5, 0x00010000#32)])
    (fun t => (t.readReg 2#5, t.pc))
    = some (0x00000001#32, 0x00400004#32) := by decide

theorem test_sltiu_V81 : after (start 0x00400000#32 0x2C22FFFF [(1#5, 0xFFFFFFFF#32), (2#5, 0x00000077#32)])
    (fun t => (t.readReg 2#5, t.pc))
    = some (0x00000000#32, 0x00400004#32) := by decide

/-! ### 45_bitwise.md -/

theorem test_and_V82 : after (start 0x00400000#32 0x00221824 [(1#5, 0xFF00FF00#32), (2#5, 0x0FF00FF0#32)])
    (fun t => (t.readReg 3#5, t.pc))
    = some (0x0F000F00#32, 0x00400004#32) := by decide

theorem test_or_V83 : after (start 0x00400000#32 0x00221825 [(1#5, 0xFF00FF00#32), (2#5, 0x0FF00FF0#32)])
    (fun t => (t.readReg 3#5, t.pc))
    = some (0xFFF0FFF0#32, 0x00400004#32) := by decide

theorem test_xor_V84 : after (start 0x00400000#32 0x00221826 [(1#5, 0xFF00FF00#32), (2#5, 0x0FF00FF0#32)])
    (fun t => (t.readReg 3#5, t.pc))
    = some (0xF0F0F0F0#32, 0x00400004#32) := by decide

theorem test_nor_V86 : after (start 0x00400000#32 0x00001827 [])
    (fun t => (t.readReg 3#5, t.pc))
    = some (0xFFFFFFFF#32, 0x00400004#32) := by decide

theorem test_andi_V88 : after (start 0x00400000#32 0x3022FF00 [(1#5, 0x12345678#32)])
    (fun t => (t.readReg 2#5, t.pc))
    = some (0x00005600#32, 0x00400004#32) := by decide

theorem test_andi_V89 : after (start 0x00400000#32 0x3022FFFF [(1#5, 0xFFFFFFFF#32)])
    (fun t => (t.readReg 2#5, t.pc))
    = some (0x0000FFFF#32, 0x00400004#32) := by decide

theorem test_ori_V90 : after (start 0x00400000#32 0x34225678 [(1#5, 0x12340000#32)])
    (fun t => (t.readReg 2#5, t.pc))
    = some (0x12345678#32, 0x00400004#32) := by decide

theorem test_ori_V91 : after (start 0x00400000#32 0x34028000 [])
    (fun t => (t.readReg 2#5, t.pc))
    = some (0x00008000#32, 0x00400004#32) := by decide

theorem test_xori_V93 : after (start 0x00400000#32 0x3822FFFF [(1#5, 0xFFFFFFFF#32)])
    (fun t => (t.readReg 2#5, t.pc))
    = some (0xFFFF0000#32, 0x00400004#32) := by decide

/-! ### 46_branch_jump.md -/

theorem test_beq_V94 : after (start 0x00001000#32 0x10220004 [(1#5, 0x00000009#32), (2#5, 0x00000009#32)])
    (fun t => t.pc)
    = some 0x00001014#32 := by decide

theorem test_beq_V97 : after (start 0x00000000#32 0x1000FFFE [])
    (fun t => t.pc)
    = some 0xFFFFFFFC#32 := by decide

theorem test_bne_V98 : after (start 0x00001008#32 0x1420FFFD [(1#5, 0x00000001#32)])
    (fun t => t.pc)
    = some 0x00001000#32 := by decide

theorem test_blez_V100 : after (start 0x00002000#32 0x18200002 [(1#5, 0xFFFFFFFF#32)])
    (fun t => t.pc)
    = some 0x0000200C#32 := by decide

theorem test_blez_V102 : after (start 0x00002000#32 0x18200002 [(1#5, 0x00000001#32)])
    (fun t => t.pc)
    = some 0x00002004#32 := by decide

theorem test_bgtz_V104 : after (start 0x00002000#32 0x1C20FFFE [(1#5, 0x00000005#32)])
    (fun t => t.pc)
    = some 0x00001FFC#32 := by decide

theorem test_bgtz_V105 : after (start 0x00002000#32 0x1C20FFFE [(1#5, 0x00000000#32)])
    (fun t => t.pc)
    = some 0x00002004#32 := by decide

theorem test_j_V109 : after (start 0x00401000#32 0x08001000 [])
    (fun t => t.pc)
    = some 0x00004000#32 := by decide

theorem test_j_V110 : after (start 0x0FFFFFFC#32 0x08000000 [])
    (fun t => t.pc)
    = some 0x10000000#32 := by decide

theorem test_jal_V113 : after (start 0xFFFFFFFC#32 0x0C000001 [(31#5, 0x00000077#32)])
    (fun t => (t.readReg 31#5, t.pc))
    = some (0x00000000#32, 0x00000004#32) := by decide

theorem test_jr_V114 : after (start 0x00400100#32 0x03E00008 [(31#5, 0x00400014#32)])
    (fun t => t.pc)
    = some 0x00400014#32 := by decide

theorem test_jr_V115 : after (start 0x00400000#32 0x00200008 [(1#5, 0x00001002#32)])
    (fun t => t.pc)
    = some 0x00001002#32 := by decide

theorem test_jalr_V118 : after (start 0x00400020#32 0x03E0F809 [(31#5, 0x00400100#32)])
    (fun t => (t.readReg 31#5, t.pc))
    = some (0x00400024#32, 0x00400100#32) := by decide

theorem test_jalr_V119 : after (start 0x00400020#32 0x00202809 [(1#5, 0x00400100#32), (5#5, 0x00000077#32)])
    (fun t => (t.readReg 31#5, t.pc))
    = some (0x00400024#32, 0x00400100#32) := by decide

/-! ### 47_load_store.md -/

theorem test_lb_V125 : after (holding (start 0x00400000#32 0x80220004 [(1#5, 0x10000000#32)]) 0x10000000#32 [0xEF#8, 0xBE#8, 0xAD#8, 0xDE#8, 0x80#8, 0x7F#8, 0x00#8, 0x80#8])
    (fun t => (t.readReg 2#5, t.pc))
    = some (0xFFFFFF80#32, 0x00400004#32) := by decide

theorem test_lh_V129 : after (holding (start 0x00400000#32 0x84220006 [(1#5, 0x10000000#32)]) 0x10000000#32 [0xEF#8, 0xBE#8, 0xAD#8, 0xDE#8, 0x80#8, 0x7F#8, 0x00#8, 0x80#8])
    (fun t => (t.readReg 2#5, t.pc))
    = some (0xFFFF8000#32, 0x00400004#32) := by decide

theorem test_lw_V121 : after (holding (start 0x00400000#32 0x8C22FFFC [(1#5, 0x10000004#32)]) 0x10000000#32 [0xEF#8, 0xBE#8, 0xAD#8, 0xDE#8, 0x80#8, 0x7F#8, 0x00#8, 0x80#8])
    (fun t => (t.readReg 2#5, t.pc))
    = some (0xDEADBEEF#32, 0x00400004#32) := by decide

theorem test_lw_V133 : after (holding (start 0x00400000#32 0x8C200000 [(1#5, 0x10000000#32)]) 0x10000000#32 [0xEF#8, 0xBE#8, 0xAD#8, 0xDE#8, 0x80#8, 0x7F#8, 0x00#8, 0x80#8])
    (fun t => (t.readReg 0#5, t.pc))
    = some (0x00000000#32, 0x00400004#32) := by decide

theorem test_lbu_V139 : after (holding (start 0x00400000#32 0x9002FFFF []) 0xFFFFFFFF#32 [0xA5#8])
    (fun t => (t.readReg 2#5, t.pc))
    = some (0x000000A5#32, 0x00400004#32) := by decide

theorem test_lbu_V140 : after (holding (start 0x00400000#32 0x90220001 [(1#5, 0xFFFFFFFF#32)]) 0x00000000#32 [0x5A#8])
    (fun t => (t.readReg 2#5, t.pc))
    = some (0x0000005A#32, 0x00400004#32) := by decide

theorem test_lhu_V130 : after (holding (start 0x00400000#32 0x94220006 [(1#5, 0x10000000#32)]) 0x10000000#32 [0xEF#8, 0xBE#8, 0xAD#8, 0xDE#8, 0x80#8, 0x7F#8, 0x00#8, 0x80#8])
    (fun t => (t.readReg 2#5, t.pc))
    = some (0x00008000#32, 0x00400004#32) := by decide

theorem test_sb_V144 : after (holding (start 0x00400000#32 0xA0200003 [(1#5, 0x10000000#32)]) 0x10000000#32 [0xEF#8, 0xBE#8, 0xAD#8, 0xDE#8, 0x80#8, 0x7F#8, 0x00#8, 0x80#8])
    (fun t => (t.readByte 0x10000003#32, t.pc))
    = some (0x00#8, 0x00400004#32) := by decide

theorem test_sh_V142 : after (start 0x00400000#32 0xA4220002 [(1#5, 0x10000000#32), (2#5, 0x12345678#32)])
    (fun t => (t.readByte 0x10000002#32, t.readByte 0x10000003#32, t.pc))
    = some (0x78#8, 0x56#8, 0x00400004#32) := by decide

theorem test_sw_V141 : after (start 0x00400000#32 0xAC220000 [(1#5, 0x10000000#32), (2#5, 0xDEADBEEF#32)])
    (fun t => ([t.readByte 0x10000000#32, t.readByte 0x10000001#32, t.readByte 0x10000002#32, t.readByte 0x10000003#32], t.pc))
    = some ([0xEF#8, 0xBE#8, 0xAD#8, 0xDE#8], 0x00400004#32) := by decide

theorem test_sw_V148 : after (start 0x00400000#32 0xAC02FFFC [(2#5, 0x01020304#32)])
    (fun t => ([t.readByte 0xFFFFFFFC#32, t.readByte 0xFFFFFFFD#32, t.readByte 0xFFFFFFFE#32, t.readByte 0xFFFFFFFF#32], t.pc))
    = some ([0x04#8, 0x03#8, 0x02#8, 0x01#8], 0x00400004#32) := by decide

/-! ### 48_special.md -/

theorem test_syscall_V150 : after (start 0x00400000#32 0x03FFFFCC [(2#5, 0x0000000A#32)])
    (fun t => t.pc)
    = some 0x00400004#32 := by decide

theorem test_break_V151 : after (start 0x00400000#32 0x0000000D [])
    (fun t => t.pc)
    = some 0x00400004#32 := by decide

theorem test_trap_V153 : after (start 0x00400000#32 0x6BFFFFFF [])
    (fun t => t.pc)
    = some 0x00400004#32 := by decide

/-! ### Fetch, decode, reset, the run -/

theorem test_decode_error_V159 :
    fatalHalt (start 0x00400000#32 0xFFFFFFFF []) = some (.decodeError 0x00400000#32 0xFFFFFFFF#32) := by decide

theorem test_fetch_misaligned_V160 :
    fatalHalt (start 0x00400002#32 0x20080001 []) = some (.fetchMisaligned 0x00400002#32) := by decide

/-- The word laid down at the reset state is the first instruction that runs. -/
theorem test_withFetchWord :
    after (State.reset.withFetchWord 32 0x2008000A) (fun t => (t.readReg 8#5, t.pc)) =
      some (0x0000000A#32, 0x00000004#32) := by decide

/-- P1 of 95_test_vectors.md, launched with a budget of two steps. -/
def runP1 (trace : Tracing) : Option Run :=
  (runProgram trace 2 launchConfig
    [(0x00400000#32, [0x0A#8, 0x00#8, 0x08#8, 0x20#8, 0x05#8, 0x00#8, 0x09#8, 0x21#8])] 0x00400000#32).bind
      Except.toOption

theorem test_program_P1 :
    (runP1 .off).map (fun r => (r.state.readReg 9#5, r.state.pc, r.state.stepsDone, r.state.status)) =
      some (0x0000000F#32, 0x00400008#32, 2, .budgetReached) := by decide

/-- TRACE on: a line for each of the two steps (their pc, raw word and mnemonic); TRACE off: none. -/
theorem test_trace_P1 :
    (runP1 .on).map (fun r => r.lines.map fun l => (l.pc, l.raw, l.mnemonic)) =
      some [(0x00400000#32, 0x2008000A#32, "addi"), (0x00400004#32, 0x21090005#32, "addi")] ∧
    (runP1 .off).map Run.lines = some [] := by decide

/-- R118: the digits of pc and raw word are eight, with leading zeros; a value's digits are what it needs, at least. -/
theorem test_trace_digits :
    hexText false 8 0x0040000C#32 = "0040000c" ∧ hexText true 1 0xABCDEF90#32 = "ABCDEF90" ∧
    hexText false 1 0x00000000#32 = "0" := by decide

/-- R281: a segment past the top of memory is refused. -/
theorem test_launch_overrun :
    (launch launchConfig [(0xFFFFFFFF#32, [0x00#8, 0x00#8])] 0x00000000#32).isSome = false := by decide

/-- The register names of 10_state.md R22. -/
theorem test_trace_names : regName 0#5 = "zero" ∧ regName 8#5 = "t0" ∧ regName 31#5 = "ra" := by decide

/-- BYTE_ORDER = big: the bytes of a stored word, most significant first (20_memory.md R53). -/
theorem test_big_endian_store :
    (let t := (build bigConfig 0x00400000#32 []).writeWord 0x10000000#32 0x01020304#32
     (t.readByte 0x10000000#32, t.readByte 0x10000003#32, t.readHalf 0x10000002#32)) =
      (0x01#8, 0x04#8, 0x0304#16) := by decide

/-! ## Witnesses: the hypotheses of the obligations are met -/

/-- DecodesTo, Register-type: for every selecting pattern a word, its ignored bits set, that matches it. -/
theorem witness_functMask :
    (([0x20, 0x21, 0x22, 0x23, 0x18, 0x19, 0x1A, 0x1B, 0x10, 0x11, 0x12, 0x13, 0x00, 0x02, 0x03, 0x04, 0x06] ++
      [0x07, 0x2A, 0x2B, 0x24, 0x25, 0x26, 0x27, 0x08, 0x09, 0x0C, 0x0D]).all fun f =>
        BitVec.ofNat 32 (0x03FFFFC0 + f) &&& 0xFC00003F#32 == BitVec.ofNat 32 f) = true := by decide

/-- DecodesTo, Immediate-type and Jump-type, and `trap`. -/
theorem witness_opcodeMask :
    (([0x08, 0x09, 0x0F, 0x0A, 0x0B, 0x0C, 0x0D, 0x0E, 0x04, 0x05, 0x06, 0x07, 0x02, 0x03] ++
      [0x20, 0x24, 0x28, 0x21, 0x25, 0x29, 0x23, 0x2B, 0x1A]).all fun op =>
        BitVec.ofNat 32 (op * 2 ^ 26 + 0x03FFFFFF) &&& 0xFC000000#32 == BitVec.ofNat 32 (op * 2 ^ 26)) = true ∧
    launchConfig.trapOpcode = 0x1A#6 := by decide

/-- SignedDivideCompletesOrHalts: a zero divisor; the overflow pair under each DIV_OVERFLOW. -/
theorem witness_div_stops :
    (build launchConfig 0x00400000#32 [(1#5, 7#32)]).readReg 2#5 = 0x00000000#32 ∧
    (let s := build launchConfig 0x00400000#32 [(1#5, 0x80000000#32), (2#5, 0xFFFFFFFF#32)]
     s.readReg 1#5 = 0x80000000#32 ∧ s.readReg 2#5 = 0xFFFFFFFF#32 ∧ s.config.divOverflow = .fatal) ∧
    (let s := build wrapConfig 0x00400000#32 [(1#5, 0x80000000#32), (2#5, 0xFFFFFFFF#32)]
     s.readReg 1#5 = 0x80000000#32 ∧ s.readReg 2#5 = 0xFFFFFFFF#32 ∧ s.config.divOverflow = .wrap) := by decide

/-- SignedDivideCompletesOrHalts, UnsignedDivideCompletesOrHalts, DivideLaws: the ordinary case, one step from the
overflow pair. -/
theorem witness_div_ordinary :
    (let s := build launchConfig 0x00400000#32 [(1#5, 0x80000001#32), (2#5, 0xFFFFFFFF#32)]
     s.readReg 2#5 ≠ 0x00000000#32 ∧ ¬(s.readReg 1#5 = 0x80000000#32 ∧ s.readReg 2#5 = 0xFFFFFFFF#32)) := by decide

/-- JalrLinksInRegister31: link31 with rd = 5; refuse with rd = 31 and with rd = 30. -/
theorem witness_jalr :
    (build launchConfig 0x00400020#32 []).config.jalrRd = .link31 ∧
    (build refuseConfig 0x00400020#32 []).config.jalrRd = .refuse ∧ (31#5 : RegIdx) = 31#5 ∧ (30#5 : RegIdx) ≠ 31#5 := by
  decide

/-- JumpRegisterGoesToTheSourceValue: a running state whose x[31] is not a multiple of 4. -/
theorem witness_jr_misaligned :
    (build launchConfig 0x00400000#32 [(31#5, 0xFFFFFFFE#32)]).status = .running ∧
    ((build launchConfig 0x00400000#32 [(31#5, 0xFFFFFFFE#32)]).readReg 31#5).toNat % 4 ≠ 0 := by decide

/-- BranchesGoToTargetOrFallThrough: an aligned pc at the top of memory. -/
theorem witness_branch_aligned : (build launchConfig 0xFFFFFFFC#32 []).pc.toNat % 4 = 0 := by decide

/-- HalfwordAccessesCompleteOrHalt: the last even address; the last odd one but 0xFFFFFFFF under permit; an odd one under
fatal; 0xFFFFFFFF under permit (base x[0], displacements -2, -3, -1, -1). -/
theorem witness_halfword :
    (BitVec.ofInt 32 ((0 : Nat) + (0xFFFE#16).toInt)).toNat % 2 = 0 ∧
    (permitConfig.halfAlign = .permit ∧ BitVec.ofInt 32 ((0 : Nat) + (0xFFFD#16).toInt) ≠ 0xFFFFFFFF#32 ∧
      (BitVec.ofInt 32 ((0 : Nat) + (0xFFFD#16).toInt)).toNat % 2 = 1) ∧
    ((BitVec.ofInt 32 ((0 : Nat) + (0xFFFF#16).toInt)).toNat % 2 = 1 ∧ launchConfig.halfAlign = .fatal) ∧
    BitVec.ofInt 32 ((0 : Nat) + (0xFFFF#16).toInt) = 0xFFFFFFFF#32 ∧
    (State.resetWith permitConfig 0x00400000#32).readReg 0#5 = 0x00000000#32 := by decide

/-- WordAccessesCompleteOrHalt: the last word, and the last address that is none. -/
theorem witness_word :
    (BitVec.ofInt 32 ((0 : Nat) + (0xFFFC#16).toInt)).toNat % 4 = 0 ∧
    (BitVec.ofInt 32 ((0 : Nat) + (0xFFFF#16).toInt)).toNat % 4 ≠ 0 := by decide

/-- RegisterZeroIsHardwired: another register. -/
theorem witness_register : (0#5 : RegIdx) ≠ 31#5 := by decide

/-- ResetMeetsTheInvariant, DecodeOfEncodeIsIdentity: a well-formed configuration, with TRAP_OPCODE at either end of the
free range. -/
theorem witness_config :
    launchConfig.wellFormed = true ∧ Config.wellFormed { launchConfig with trapOpcode := 0x01#6 } = true ∧
    Config.wellFormed { launchConfig with trapOpcode := 0x3F#6 } = true := by decide

/-- DecodedWordsDifferOnlyInIgnoredBits: `add` with a shamt field of 5, and with one of 0. -/
theorem witness_ignored_bits :
    decodeWord launchConfig 0x00221960#32 = .ok (.add 3#5 1#5 2#5) ∧
    0x00221820#32 &&& usedBits (.add 3#5 1#5 2#5) = 0x00221960#32 &&& usedBits (.add 3#5 1#5 2#5) := ⟨rfl, by decide⟩

/-- UnassignedEncodingsAreDecodeErrors: V158 (opcode 0x22) and V156 (function code 0x01) stand where a running state
fetches. -/
theorem witness_unassigned :
    (let s := start 0x00400000#32 0x88220000 []
     s.config.trapOpcode = 0x1A#6 ∧ s.status = .running ∧ s.pc.toNat % 4 = 0 ∧ s.fetchWord = 0x88220000#32 ∧
       (opcodeOf s.fetchWord).toNat = 0x22) ∧
    (let s := start 0xFFFFFFFC#32 0x00000001 []
     s.status = .running ∧ s.pc.toNat % 4 = 0 ∧ (opcodeOf s.fetchWord).toNat = 0 ∧
       (functOf s.fetchWord).toNat = 0x01) := by decide

/-- StepRunsTheDecodedInstruction: one state for each outcome of `exec`. -/
theorem witness_step :
    (let s := start 0xFFFFFFFC#32 0x00221820 [(1#5, 5#32)]
     s.status = .running ∧ s.pc.toNat % 4 = 0 ∧
       decodeBytes s.config [s.readByte s.pc, s.readByte (s.pc + 1#32), s.readByte (s.pc + 2#32),
         s.readByte (s.pc + 3#32)] = .ok (.add 3#5 1#5 2#5, []) ∧ ∃ t, exec (.add 3#5 1#5 2#5) s = .next t) ∧
    (∃ f, exec (.div 1#5 2#5) (start 0x00400000#32 0x0022001A []) = .fault f) ∧
    (∃ q, exec (.jalr 5#5 1#5) ((build refuseConfig 0x00400000#32 []).withFetchWord 32 0x00202809) = .refused q) :=
  ⟨⟨rfl, rfl, rfl, ⟨_, rfl⟩⟩, ⟨_, rfl⟩, ⟨_, rfl⟩⟩

/-- MisalignedFetchIsFatal. -/
theorem witness_misaligned_fetch :
    (build launchConfig 0xFFFFFFFF#32 []).status = .running ∧ (build launchConfig 0xFFFFFFFF#32 []).pc.toNat % 4 ≠ 0 := by
  decide

/-- FatalHaltsHaveOnlyTheirListedCauses, TraceLineShowsValuesAsRead: a step that stops with each kind of fault. -/
theorem witness_fatal_halts :
    step (start 0x00400001#32 0x20080001 []) = .fault (.fetchMisaligned 0x00400001#32) ∧
    step (start 0x00400000#32 0x0000000A []) = .fault (.decodeError 0x00400000#32 0x0000000A#32) ∧
    step (start 0x00400000#32 0x0000001A []) = .fault (.divideByZero 0x00400000#32 0x0000001A#32 (.div 0#5 0#5)) ∧
    step (start 0x00400000#32 0x0022001A [(1#5, 0x80000000#32), (2#5, 0xFFFFFFFF#32)]) =
      .fault (.divideOverflow 0x00400000#32 0x0022001A#32 (.div 1#5 2#5)) ∧
    step (start 0x00400000#32 0x8C200002 [(1#5, 0x10000000#32)]) =
      .fault (.dataMisaligned 0x10000002#32 0x00400000#32 0x8C200002#32 (.lw 0#5 0x0002#16 1#5)) ∧
    step (start 0x00400000#32 0xA4220001 [(1#5, 0x10000000#32)]) =
      .fault (.dataMisaligned 0x10000001#32 0x00400000#32 0xA4220001#32 (.sh 2#5 0x0001#16 1#5)) :=
  ⟨fault_of_fault? (by decide), fault_of_fault? (by decide), fault_of_fault? (by decide), fault_of_fault? (by decide),
    fault_of_fault? (by decide), fault_of_fault? (by decide)⟩

/-- TraceLineShowsValuesAsRead: a step that the model refuses. -/
theorem witness_refused_step :
    step ((build refuseConfig 0x00400000#32 []).withFetchWord 32 0x00202809) = .refused (.jalrLinkNot31 5#5) :=
  refused_of_refusal? (by decide)

/-- RunningStepsCompleteOrHalt, EveryRunEndsAtItsBudgetOrAFatalHalt, TracedRunsEmitOneLinePerCompletedStep: the spec's defaults; a budget just reached, and
one with steps left. -/
theorem witness_running :
    NoRefusals (build launchConfig 0x00400000#32 []).config ∧ (build launchConfig 0x00400000#32 []).status = .running ∧
    (build launchConfig 0x00400000#32 []).stepsDone ≤ 0 ∧ (build launchConfig 0x00400000#32 []).stepsDone < 1 :=
  ⟨⟨rfl, rfl⟩, rfl, by decide, by decide⟩

/-- TracedRunsEmitOneLinePerCompletedStep: a run of one step, whose one line is of that step. -/
theorem witness_traced_run :
    ∃ u, runToEnd .on 1 ⟨start 0x00400000#32 0x00221820 [], []⟩ = .ok u ∧
      u.lines[0]? = some ⟨0x00400000#32, 0x00221820#32, "add",
        [.register 3#5 0x00000000#32, .register 1#5 0x00000000#32, .register 2#5 0x00000000#32]⟩ := ⟨_, rfl, rfl⟩

/-- EndedRunsTakeNoStep: both ends of a run. -/
theorem witness_ended :
    ({ State.reset with status := .budgetReached } : State).status ≠ .running ∧
    ({ State.reset with status := .fatal (.fetchMisaligned 0x00000002#32) } : State).status ≠ .running := by decide

/-- StepKeepsTheInvariant: `sb` of zero over a listed byte, from a state that meets the invariant. -/
theorem witness_invariant :
    (holding (start 0x00400000#32 0xA0200003 [(1#5, 0x10000000#32)]) 0x10000000#32 [0xEF#8, 0xBE#8, 0xAD#8, 0xDE#8]).Inv ∧
    ∃ t, step (holding (start 0x00400000#32 0xA0200003 [(1#5, 0x10000000#32)]) 0x10000000#32
      [0xEF#8, 0xBE#8, 0xAD#8, 0xDE#8]) = .next t ∧ t.readByte 0x10000003#32 = 0x00#8 :=
  ⟨⟨by decide, by decide, by decide⟩, next_of_seen (by decide)⟩

/-- StepKeepsConfigurationAndCounts, TraceLineShowsValuesAsRead: a step that completes. -/
theorem witness_completed :
    ∃ t, step (start 0x00400000#32 0x00221820 [(1#5, 5#32), (2#5, 0xFFFFFFFD#32)]) = .next t ∧ t.stepsDone = 1 :=
  next_of_seen (by decide)

/-- OnlyTransfersLeaveSequentialOrder: an instruction that is no transfer completes. -/
theorem witness_sequential :
    (∃ t, exec (.lui 8#5 0x1234#16) (build launchConfig 0xFFFFFFFC#32 []) = .next t ∧ t.pc = 0x00000000#32) ∧
    isTransfer (.lui 8#5 0x1234#16) = false := ⟨next_of_seen (by decide), rfl⟩

/-- OnlyRegisterJumpsMisalignPc: `jr` from an aligned pc to 0x1002. -/
theorem witness_misaligning_jump :
    (build launchConfig 0x00400000#32 [(1#5, 0x00001002#32)]).pc.toNat % 4 = 0 ∧
    ∃ t, exec (.jr 1#5) (build launchConfig 0x00400000#32 [(1#5, 0x00001002#32)]) = .next t ∧ t.pc.toNat % 4 = 2 :=
  ⟨by decide, next_of_seen (by decide)⟩

/-- OnlyListedRegistersAreWritten: a register that is no destination; HI and LO changed by a multiply. -/
theorem witness_written :
    (∃ t, exec (.mult 1#5 2#5) (build launchConfig 0x00400000#32 [(1#5, 0xFFFFFFFF#32), (2#5, 5#32)]) = .next t ∧
      (t.hi, t.lo) = (0xFFFFFFFF#32, 0xFFFFFFFB#32)) ∧
    destination (.mult 1#5 2#5) ≠ some 1#5 ∧
    (build launchConfig 0x00400000#32 [(1#5, 0xFFFFFFFF#32), (2#5, 5#32)]).hi = 0x00000000#32 :=
  ⟨next_of_seen (by decide), by decide, by decide⟩

/-- OnlyStoresChangeMemory: V143. -/
theorem witness_store_changes :
    (∃ t, step (start 0x00400000#32 0xA0220001 [(1#5, 0x10000000#32), (2#5, 0x12345678#32)]) = .next t ∧
      t.readByte 0x10000001#32 = 0x78#8) ∧
    (start 0x00400000#32 0xA0220001 [(1#5, 0x10000000#32), (2#5, 0x12345678#32)]).readByte 0x10000001#32 = 0x00#8 :=
  ⟨next_of_seen (by decide), by decide⟩

/-- OnlyMovesFromReadTheAccumulators: `mthi` is no move from HI or LO. -/
theorem witness_no_move_from : (∀ rd, Instr.mthi 1#5 ≠ .mfhi rd) ∧ (∀ rd, Instr.mthi 1#5 ≠ .mflo rd) :=
  ⟨fun _ => nofun, fun _ => nofun⟩

/-- OnlyNamedRegistersAreRead: the destination itself is no operand. -/
theorem witness_unnamed : 3#5 ∉ sources (.add 3#5 1#5 2#5) ∧ 31#5 ∉ sources (.jal 0x0000001#26) := by decide

/-- CanonicalMemoriesWithEqualReadsAreEqual: a memory of two bytes, at either end of the address space. -/
theorem witness_canonical :
    Memory.wf 0x00#8 [(0, 0x5A#8), (0xFFFFFFFF, 0xA5#8)] = true ∧
    Memory.wf 0x00#8 [(0, 0x00#8)] = false ∧ Memory.wf 0x00#8 [(1, 0x5A#8), (0, 0x5A#8)] = false := by decide

/-- StoredValuesAreLoadedBack: each store completes, at the top of memory, under each byte order (u is t itself: see
witness_load_back). -/
theorem witness_stores :
    (∃ t, exec (.sw 2#5 0xFFFC#16 0#5) (build launchConfig 0x00400000#32 [(2#5, 0x01020304#32)]) = .next t ∧
      t.config.byteOrder = .little) ∧
    (∃ t, exec (.sw 2#5 0xFFFC#16 0#5) (build bigConfig 0x00400000#32 [(2#5, 0x01020304#32)]) = .next t ∧
      t.config.byteOrder = .big) ∧
    (∃ t, exec (.sh 2#5 0xFFFE#16 0#5) (build launchConfig 0x00400000#32 [(2#5, 0x01020304#32)]) = .next t ∧
      t.readByte 0xFFFFFFFE#32 = 0x04#8) ∧
    (∃ t, exec (.sb 2#5 0xFFFF#16 0#5) (build launchConfig 0x00400000#32 [(2#5, 0x01020304#32)]) = .next t ∧
      t.readByte 0xFFFFFFFF#32 = 0x04#8) :=
  ⟨next_of_seen (by decide), next_of_seen (by decide), next_of_seen (by decide), next_of_seen (by decide)⟩

/-- StoredValuesAreLoadedBack: after `sw` at 0xFFFFFFFC, the last byte and the last halfword of the word are at a + 3 and
a + 2. -/
theorem witness_load_back :
    ∃ t, exec (.sw 2#5 0xFFFC#16 0#5) (build launchConfig 0x00400000#32 [(2#5, 0x01020304#32)]) = .next t ∧
      (SameMemory t t ∧ t.config = (build launchConfig 0x00400000#32 [(2#5, 0x01020304#32)]).config ∧
        effectiveAddress (t.readReg 0#5) 0xFFFF#16 =
          effectiveAddress ((build launchConfig 0x00400000#32 [(2#5, 0x01020304#32)]).readReg 0#5) 0xFFFC#16 +
            BitVec.ofNat 32 3 ∧
        effectiveAddress (t.readReg 0#5) 0xFFFE#16 =
          effectiveAddress ((build launchConfig 0x00400000#32 [(2#5, 0x01020304#32)]).readReg 0#5) 0xFFFC#16 +
            BitVec.ofNat 32 (2 * 1)) :=
  ⟨_, rfl, fun _ => rfl, by decide, by decide, by decide⟩

/-- StoreIntoTheInstructionStreamIsFetched: step 4 of P7. -/
theorem witness_store_into_stream :
    (let s := start 0x0040000C#32 0xAD480010 [(8#5, 0x2009002A#32), (10#5, 0x00400000#32)]
     decodeWord s.config s.fetchWord = .ok (.sw 8#5 0x0010#16 10#5) ∧
       effectiveAddress (s.readReg 10#5) 0x0010#16 = s.pc + 4#32) ∧
    ∃ t, step (start 0x0040000C#32 0xAD480010 [(8#5, 0x2009002A#32), (10#5, 0x00400000#32)]) = .next t ∧
      t.pc = 0x00400010#32 := ⟨⟨rfl, by decide⟩, next_of_seen (by decide)⟩

/-- MemoryReadsBackWhatWasWritten: the last address of each width's domain. -/
theorem witness_access_domain :
    (0xFFFFFFFE#32 : Word).toNat + 2 ≤ 2 ^ 32 ∧ (0xFFFFFFFC#32 : Word).toNat + 4 ≤ 2 ^ 32 := by decide

/-- LaunchLoadsTheImage: a second segment over the first, ending at the last address. -/
theorem witness_launch :
    (launch launchConfig [(0xFFFFFFFE#32, [0x11#8, 0x22#8])] 0x00400000#32).isSome = true ∧
    (launch launchConfig ([(0xFFFFFFFE#32, [0x11#8, 0x22#8])] ++ [(0xFFFFFFFF#32, [0x33#8])]) 0x00400000#32).isSome = true ∧
    ([0x33#8] : List Byte)[0]? = some 0x33#8 ∧ (0xFFFFFFFF#32 : Word).toNat + 1 ≤ 2 ^ 32 := by decide

end Sys2Proof.Tests
end

section
/-! SUPPORT. The outcomes of a step (00_scope.md R11): when the model refuses, what a completed instruction keeps of the
configuration and the run control, and from these the two statements of 00_scope.md. -/

namespace Sys2Proof.Machine

variable {i : Instr} {s t : State} {q : Refusal}

/-! ## Refusals -/

/-- Only a halfword access under HALF_ALIGN = permit falls outside the access primitive's domain (20_memory.md R59). -/
theorem accessCheck_pastTop {c : Config} {w : Width} {a : Word} (h : accessCheck c w a = .pastTop) :
    c.halfAlign = .permit := by
  cases w with
  | byte => simp at h
  | word => rw [accessCheck_word] at h; split at h <;> simp at h
  | half =>
    obtain he | ho := Nat.mod_two_eq_zero_or_one a.toNat
    · simp [accessCheck_half_even c he] at h
    · cases hc : c.halfAlign with
      | permit => rfl
      | fatal => simp [accessCheck_half_odd c ho, hc] at h

theorem loadResult_refused {op : Instr} {w : Width} {a : Word} {rt : RegIdx} {v : Word}
    (h : loadResult op w a rt v s = .refused q) : s.config.halfAlign = .permit := by
  cases ha : accessCheck s.config w a with
  | legal => simp [loadResult_legal ha, writeResult] at h
  | misaligned => simp [loadResult_misaligned ha] at h
  | pastTop => exact accessCheck_pastTop ha

theorem storeResult_refused {op : Instr} {w : Width} {a : Word} {u : State}
    (h : storeResult op w a u s = .refused q) : s.config.halfAlign = .permit := by
  cases ha : accessCheck s.config w a with
  | legal => simp [storeResult_legal ha] at h
  | misaligned => simp [storeResult_misaligned ha] at h
  | pastTop => exact accessCheck_pastTop ha

theorem execJalr_refused {rd rs : RegIdx} (h : execJalr rd rs s = .refused q) : s.config.jalrRd = .refuse := by
  cases hc : s.config.jalrRd with
  | refuse => rfl
  | link31 => simp [execJalr, hc, linkAndJump] at h

theorem execDiv_ne_refused {rs rt : RegIdx} : execDiv rs rt s ≠ .refused q := by
  simp only [execDiv]
  split
  · simp [raise]
  · split
    · split <;> simp [raise, writeHiLo]
    · simp [writeHiLo]

theorem execDivu_ne_refused {rs rt : RegIdx} : execDivu rs rt s ≠ .refused q := by
  simp only [execDivu]
  split <;> simp [raise, writeHiLo]

/-- An instruction is refused only under one of the two parameters that let the model refuse: by a halfword access, or
by `jalr`. -/
theorem exec_refused_cases (h : exec i s = .refused q) : s.config.halfAlign = .permit ∨ s.config.jalrRd = .refuse := by
  cases i
  case lb | lh | lw | lbu | lhu =>
    simp only [exec, execLb, execLh, execLw, execLbu, execLhu] at h
    exact .inl (loadResult_refused h)
  case sb | sh | sw =>
    simp only [exec, execSb, execSh, execSw] at h
    exact .inl (storeResult_refused h)
  case jalr => exact .inr (execJalr_refused h)
  case div => exact absurd h execDiv_ne_refused
  case divu => exact absurd h execDivu_ne_refused
  -- Each of the others answers a next state outright.
  all_goals cases h

/-- A refusal of a running step is its instruction's. -/
theorem step_refused (hr : s.status = .running) (h : step s = .refused q) : ∃ i, exec i s = .refused q := by
  rw [step_running hr] at h
  split at h
  · next i _ =>
    refine ⟨i, ?_⟩
    cases he : exec i s with
    | next u => simp [he, countCompleted] at h
    | fault f => simp [he, countCompleted] at h
    | refused p => simpa [he, countCompleted] using h
  · simp at h

/-- Where both parameters stand at the spec's defaults, no running step is refused. -/
theorem step_ne_refused (hc : NoRefusals s.config) (hr : s.status = .running) : step s ≠ .refused q := by
  intro h
  obtain ⟨halign, hlink⟩ := hc
  obtain ⟨i, hi⟩ := step_refused hr h
  obtain hp | hp := exec_refused_cases hi
  · simp [halign] at hp
  · simp [hlink] at hp

/-! ## What completion keeps -/

theorem Stored.sameControl {rs : RegIdx} {imm : BitVec 16} {n : Nat} (h : Stored s rs imm n t) : SameControl s t := by
  obtain ⟨-, v, rfl⟩ | ⟨-, v, rfl⟩ | ⟨-, v, rfl⟩ := h
  all_goals exact ⟨rfl, rfl, rfl⟩

/-- An instruction that completes leaves the configuration and the run control alone. -/
theorem exec_next_sameControl (h : exec i s = .next t) : SameControl s t := by
  obtain ⟨r, v, -, -, -, rfl⟩ | ⟨hi, lo, -, -, -, rfl, -⟩ | ⟨target, -, -, -, rfl, -⟩ | ⟨target, -, -, -, rfl, -⟩ |
    ⟨rs, imm, n, -, -, -, hst⟩ := exec_next_cases h
  case inr.inr.inr.inr => exact hst.sameControl
  all_goals simp [SameControl]

/-! ## The statements of 00_scope.md -/

/-- Settles O29: a running step that is not refused completes or halts, and the runner follows it in either case. -/
theorem runningStepsCompleteOrHalt : Obligations.RunningStepsCompleteOrHalt := by
  intro s budget hc hr hb
  cases h : step s with
  | next t => exact .inl ⟨t, rfl, runnerStep_of_next hr hb h⟩
  | fault f => exact .inr ⟨f, rfl, runnerStep_of_fault hr hb h⟩
  | refused q => exact absurd h (step_ne_refused hc hr)

/-- Settles O32: a completed step is its instruction's effect, which keeps the run control, and then the count. -/
theorem stepKeepsConfigurationAndCounts : Obligations.StepKeepsConfigurationAndCounts := by
  intro s t h
  obtain ⟨hr, -, i, u, -, hu, rfl⟩ := step_next_cases h
  obtain ⟨hconfig, hcount, hstatus⟩ := exec_next_sameControl hu
  exact ⟨hconfig, hr, hstatus.trans hr, congrArg (· + 1) hcount⟩

end Sys2Proof.Machine
end

section
/-! SUPPORT. The state of 10_state.md: the hardwired register, the reset state, the sequential pc; and that an instruction
reads, of the registers, HI and LO, its operands only. For the last, one theorem compares an instruction's two runs from
related states, for any relation that the named updates of the state keep. -/

namespace Sys2Proof.Machine

variable {i : Instr} {s s' t : State}

/-! ## Reset (R32) -/

theorem State.readReg_resetWith (c : Config) (entry : Word) (r : RegIdx) :
    (State.resetWith c entry).readReg r = 0x00000000#32 := by
  unfold State.readReg
  split
  · rfl
  · simp [State.resetWith]

theorem State.resetWith_inv {c : Config} (entry : Word) (hc : c.wellFormed = true) : (State.resetWith c entry).Inv where
  memory := rfl
  zero := by simp [State.resetWith]
  config := hc

/-! ## The sequential pc (R26) -/

theorem Stored.pc {rs : RegIdx} {imm : BitVec 16} {n : Nat} (h : Stored s rs imm n t) : t.pc = s.pc + 4#32 := by
  obtain ⟨-, v, rfl⟩ | ⟨-, v, rfl⟩ | ⟨-, v, rfl⟩ := h
  all_goals rfl

/-- What completes and is no transfer leaves pc at the next instruction. -/
theorem exec_next_pc (h : exec i s = .next t) (hi : isTransfer i = false) : t.pc = s.pc + 4#32 := by
  obtain ⟨r, v, -, -, -, rfl⟩ | ⟨hi, lo, -, -, -, rfl, -⟩ | ⟨target, -, hj, -⟩ | ⟨target, -, hj, -⟩ |
    ⟨rs, imm, n, -, -, -, hst⟩ := exec_next_cases h
  · simp
  · simp
  · simp [hi] at hj
  · simp [hi] at hj
  · exact hst.pc

/-! ## Two runs of one instruction -/

/-- A relation between the states of two runs that every named update keeps, when both runs make the same one, and under
which pc, memory and configuration agree. The registers, HI and LO may differ. -/
structure KeptByUpdates (R : State → State → Prop) : Prop where
  pc        {t u : State} : R t u → u.pc = t.pc
  mem       {t u : State} : R t u → u.mem = t.mem
  config    {t u : State} : R t u → u.config = t.config
  writeReg  {t u : State} (k : RegIdx) (w : Word) : R t u → R (t.writeReg k w) (u.writeReg k w)
  setHi     {t u : State} (w : Word) : R t u → R (t.setHi w) (u.setHi w)
  setLo     {t u : State} (w : Word) : R t u → R (t.setLo w) (u.setLo w)
  setPc     {t u : State} (p : Word) : R t u → R (t.setPc p) (u.setPc p)
  writeByte {t u : State} (a : Word) (b : Byte) : R t u → R (t.writeByte a b) (u.writeByte a b)

namespace KeptByUpdates

variable {R : State → State → Prop} (hR : KeptByUpdates R) (h : R s s')
include hR h

/-! ### What both runs read -/

theorem nextPc : s'.nextPc = s.nextPc := by rw [State.nextPc_eq, State.nextPc_eq, hR.pc h]

theorem readByte (a : Word) : s'.readByte a = s.readByte a := State.readByte_of_mem (hR.mem h) (hR.config h) a

theorem readHalf (a : Word) : s'.readHalf a = s.readHalf a := by
  simp only [State.readHalf, hR.config h, hR.readByte h]

theorem readWord (a : Word) : s'.readWord a = s.readWord a := by
  simp only [State.readWord, hR.config h, hR.readByte h]

theorem fetchWord : s'.fetchWord = s.fetchWord := by
  simp only [State.fetchWord, hR.pc h, hR.readWord h]

/-! ### The updates made of the named ones -/

theorem advance : R s.advance s'.advance := by
  rw [State.advance, State.advance, hR.nextPc h]
  exact hR.setPc _ h

theorem writeHalf (a : Word) (v : Half) : R (s.writeHalf a v) (s'.writeHalf a v) := by
  rw [State.writeHalf, State.writeHalf, hR.config h]
  exact hR.writeByte _ _ (hR.writeByte _ _ h)

theorem writeWord (a v : Word) : R (s.writeWord a v) (s'.writeWord a v) := by
  rw [State.writeWord, State.writeWord, hR.config h]
  exact hR.writeByte _ _ (hR.writeByte _ _ (hR.writeByte _ _ (hR.writeByte _ _ h)))

/-! ### The ways an instruction ends -/

theorem writeResult (r : RegIdx) (v : Word) : SameOutcome R (writeResult r v s) (writeResult r v s') :=
  hR.advance (hR.writeReg r v h)

theorem writeHiLo (hi lo : Word) : SameOutcome R (writeHiLo hi lo s) (writeHiLo hi lo s') :=
  hR.advance (hR.setLo lo (hR.setHi hi h))

theorem jumpTo (target : Word) : SameOutcome R (jumpTo target s) (jumpTo target s') := hR.setPc target h

theorem branchIf (taken : Bool) (imm : BitVec 16) : SameOutcome R (branchIf taken imm s) (branchIf taken imm s') := by
  simp only [Machine.branchIf, hR.pc h, hR.nextPc h]
  exact hR.jumpTo h _

theorem linkAndJump (target : Word) : SameOutcome R (linkAndJump target s) (linkAndJump target s') := by
  simp only [Machine.linkAndJump, hR.nextPc h]
  exact hR.setPc target (hR.writeReg linkReg _ h)

theorem loadResult (op : Instr) (width : Width) (a : Word) (rt : RegIdx) (v : Word) :
    SameOutcome R (loadResult op width a rt v s) (loadResult op width a rt v s') := by
  simp only [Machine.loadResult, hR.config h, hR.pc h, hR.fetchWord h]
  split
  · exact hR.writeResult h rt v
  all_goals rfl

theorem storeResult (op : Instr) (width : Width) (a : Word) {t t' : State} (ht : R t t') :
    SameOutcome R (storeResult op width a t s) (storeResult op width a t' s') := by
  simp only [Machine.storeResult, hR.config h, hR.pc h, hR.fetchWord h]
  split
  · exact hR.advance ht
  all_goals rfl

/-! ### The instructions that can stop by their operands or their configuration -/

theorem execDiv {rs rt : RegIdx} (hs : s'.readReg rs = s.readReg rs) (ht : s'.readReg rt = s.readReg rt) :
    SameOutcome R (execDiv rs rt s) (execDiv rs rt s') := by
  simp only [Machine.execDiv, hs, ht, hR.config h, hR.pc h, hR.fetchWord h]
  split
  · rfl
  · split
    · split
      · rfl
      · exact hR.writeHiLo h _ _
    · exact hR.writeHiLo h _ _

theorem execDivu {rs rt : RegIdx} (hs : s'.readReg rs = s.readReg rs) (ht : s'.readReg rt = s.readReg rt) :
    SameOutcome R (execDivu rs rt s) (execDivu rs rt s') := by
  simp only [Machine.execDivu, hs, ht, hR.pc h, hR.fetchWord h]
  split
  · rfl
  · exact hR.writeHiLo h _ _

theorem execJalr {rd rs : RegIdx} (hs : s'.readReg rs = s.readReg rs) :
    SameOutcome R (execJalr rd rs s) (execJalr rd rs s') := by
  simp only [Machine.execJalr, hs, hR.config h]
  split
  · exact hR.linkAndJump h _
  · split
    · exact hR.linkAndJump h _
    · rfl

/-- An instruction's two runs from related states in which its operands agree (and HI or LO, where it moves from one)
stop with the same report or complete in related states. -/
theorem exec (hsrc : ∀ k ∈ sources i, s'.readReg k = s.readReg k) (hhi : ∀ rd, i = .mfhi rd → s'.hi = s.hi)
    (hlo : ∀ rd, i = .mflo rd → s'.lo = s.lo) : SameOutcome R (exec i s) (exec i s') := by
  cases i
  all_goals simp only [sources, List.forall_mem_cons, List.not_mem_nil, false_implies, implies_true, and_true] at hsrc
  case add | addu | sub | subu | addi | addiu | sll | srl | sra | sllv | srlv | srav | lui | slt | sltu | slti | sltiu |
      and | or | xor | nor | andi | ori | xori =>
    simp only [Machine.exec, execAdd, execAddu, execSub, execSubu, execAddi, execAddiu, execSll, execSrl, execSra,
      execSllv, execSrlv, execSrav, execLui, execSlt, execSltu, execSlti, execSltiu, execAnd, execOr, execXor, execNor,
      execAndi, execOri, execXori, hsrc]
    exact hR.writeResult h _ _
  case mfhi rd =>
    simp only [Machine.exec, execMfhi, hhi rd rfl]
    exact hR.writeResult h _ _
  case mflo rd =>
    simp only [Machine.exec, execMflo, hlo rd rfl]
    exact hR.writeResult h _ _
  case mult | multu =>
    simp only [Machine.exec, execMult, execMultu, writeProduct, hsrc]
    exact hR.writeHiLo h _ _
  case div =>
    obtain ⟨hs, ht⟩ := hsrc
    exact hR.execDiv h hs ht
  case divu =>
    obtain ⟨hs, ht⟩ := hsrc
    exact hR.execDivu h hs ht
  case mthi =>
    simp only [Machine.exec, execMthi, hsrc]
    exact hR.advance (hR.setHi _ h)
  case mtlo =>
    simp only [Machine.exec, execMtlo, hsrc]
    exact hR.advance (hR.setLo _ h)
  case beq | bne | blez | bgtz =>
    simp only [Machine.exec, execBeq, execBne, execBlez, execBgtz, hsrc]
    exact hR.branchIf h _ _
  case j | jr =>
    simp only [Machine.exec, execJ, execJr, hR.pc h, hsrc]
    exact hR.jumpTo h _
  case jal =>
    simp only [Machine.exec, execJal, hR.pc h]
    exact hR.linkAndJump h _
  case jalr => exact hR.execJalr h hsrc
  case lb | lh | lw | lbu | lhu =>
    simp only [Machine.exec, execLb, execLh, execLw, execLbu, execLhu, dataAddress, hsrc, hR.readByte h, hR.readHalf h,
      hR.readWord h]
    exact hR.loadResult h _ _ _ _ _
  case sb =>
    simp only [Machine.exec, execSb, dataAddress, hsrc]
    exact hR.storeResult h _ _ _ (hR.writeByte _ _ h)
  case sh =>
    simp only [Machine.exec, execSh, dataAddress, hsrc]
    exact hR.storeResult h _ _ _ (hR.writeHalf h _ _)
  case sw =>
    simp only [Machine.exec, execSw, dataAddress, hsrc]
    exact hR.storeResult h _ _ _ (hR.writeWord h _ _)
  case syscall | brk | trap => exact hR.advance h

end KeptByUpdates

/-! ## HI and LO (R24) -/

/-- The runs differ at most in HI and LO, each of which is either the same in both or still at its value at the start,
`s` in one run and `h` and `l` in the other. -/
def DifferInHiLo (s : State) (h l : Word) (t u : State) : Prop :=
  u = { t with hi := u.hi, lo := u.lo } ∧ (u.hi = t.hi ∨ t.hi = s.hi ∧ u.hi = h) ∧ (u.lo = t.lo ∨ t.lo = s.lo ∧ u.lo = l)

/-- The second run's state is the first's with some HI and LO. -/
theorem differInHiLo_iff {h l : Word} {u : State} :
    DifferInHiLo s h l t u ↔
      ∃ a b, u = (t.setHi a).setLo b ∧ (a = t.hi ∨ t.hi = s.hi ∧ a = h) ∧ (b = t.lo ∨ t.lo = s.lo ∧ b = l) := by
  constructor
  · rintro ⟨hu, hhi, hlo⟩
    exact ⟨u.hi, u.lo, hu, hhi, hlo⟩
  · rintro ⟨a, b, rfl, hhi, hlo⟩
    exact ⟨rfl, hhi, hlo⟩

theorem State.writeReg_setHi (k : RegIdx) (w a : Word) : (s.setHi a).writeReg k w = (s.writeReg k w).setHi a := by
  unfold State.writeReg
  split <;> rfl

theorem State.writeReg_setLo (k : RegIdx) (w b : Word) : (s.setLo b).writeReg k w = (s.writeReg k w).setLo b := by
  unfold State.writeReg
  split <;> rfl

theorem differInHiLo_kept (s : State) (h l : Word) : KeptByUpdates (DifferInHiLo s h l) := by
  constructor
  all_goals simp only [differInHiLo_iff]
  case pc | mem | config =>
    rintro t u ⟨a, b, rfl, -⟩
    rfl
  case writeReg =>
    rintro t u k w ⟨a, b, rfl, hhi, hlo⟩
    exact ⟨a, b, by rw [State.writeReg_setLo, State.writeReg_setHi], by simpa using hhi, by simpa using hlo⟩
  case setHi =>
    rintro t u w ⟨a, b, rfl, -, hlo⟩
    exact ⟨w, b, rfl, .inl rfl, hlo⟩
  case setLo =>
    rintro t u w ⟨a, b, rfl, hhi, -⟩
    exact ⟨a, w, rfl, hhi, .inl rfl⟩
  case setPc =>
    rintro t u p ⟨a, b, rfl, hhi, hlo⟩
    exact ⟨a, b, rfl, hhi, hlo⟩
  case writeByte =>
    rintro t u c v ⟨a, b, rfl, hhi, hlo⟩
    exact ⟨a, b, rfl, hhi, hlo⟩

/-! ## One general register (R23) -/

/-- The runs differ at most in x[r], which is either the same in both or still at its value at the start, that of `s` in
one run and `v` in the other. -/
def DifferInRegister (s : State) (r : RegIdx) (v : Word) (t u : State) : Prop :=
  u.hi = t.hi ∧ u.lo = t.lo ∧ u.pc = t.pc ∧ u.mem = t.mem ∧ SameRegsBut r t u ∧ SameControl t u ∧
    (u.readReg r = t.readReg r ∨ t.readReg r = s.readReg r ∧ u.readReg r = heldIn r v)

theorem State.readReg_writeReg_heldIn (s : State) (r : RegIdx) (v : Word) : (s.writeReg r v).readReg r = heldIn r v :=
  State.readReg_writeReg_same s r v

theorem differInRegister_writeReg (s : State) (r : RegIdx) (v : Word) : DifferInRegister s r v s (s.writeReg r v) :=
  ⟨by simp, by simp, by simp, by simp, fun _ hk => State.readReg_writeReg_other s hk v, by simp [SameControl],
    .inr ⟨rfl, State.readReg_writeReg_heldIn s r v⟩⟩

theorem differInRegister_kept (s : State) (r : RegIdx) (v : Word) : KeptByUpdates (DifferInRegister s r v) := by
  constructor
  all_goals intro t u
  case pc | mem =>
    rintro ⟨-, -, hpc, hmem, -⟩
    assumption
  case config =>
    rintro ⟨-, -, -, -, -, ⟨hconfig, -⟩, -⟩
    exact hconfig
  case writeReg =>
    rintro k w ⟨hhi, hlo, hpc, hmem, hregs, hcontrol, hr⟩
    refine ⟨by simpa, by simpa, by simpa, by simpa, fun j hj => ?_, by simpa [SameControl] using hcontrol, ?_⟩
    · simp only [State.readReg_writeReg, hregs j hj]
    · by_cases hk : r = k
      · simp [State.readReg_writeReg, hk]
      · simpa only [State.readReg_writeReg_other _ hk] using hr
  case setHi =>
    rintro w ⟨-, hlo, hpc, hmem, hregs, hcontrol, hr⟩
    exact ⟨rfl, hlo, hpc, hmem, hregs, hcontrol, hr⟩
  case setLo =>
    rintro w ⟨hhi, -, hpc, hmem, hregs, hcontrol, hr⟩
    exact ⟨hhi, rfl, hpc, hmem, hregs, hcontrol, hr⟩
  case setPc =>
    rintro p ⟨hhi, hlo, -, hmem, hregs, hcontrol, hr⟩
    exact ⟨hhi, hlo, rfl, hmem, hregs, hcontrol, hr⟩
  case writeByte =>
    rintro a b ⟨hhi, hlo, hpc, hmem, hregs, ⟨hconfig, hcount⟩, hr⟩
    exact ⟨hhi, hlo, hpc, by simp [hmem, hconfig], hregs, ⟨hconfig, hcount⟩, hr⟩

/-! ## The statements of 10_state.md -/

/-- Settles O33: of the ways to complete, only those of a transfer leave pc elsewhere. -/
theorem onlyTransfersLeaveSequentialOrder : Obligations.OnlyTransfersLeaveSequentialOrder :=
  fun _ _ _ h hi => exec_next_pc h hi

/-- Settles O37: the two runs start related by `DifferInHiLo`, with every general register the same. -/
theorem onlyMovesFromReadTheAccumulators : Obligations.OnlyMovesFromReadTheAccumulators := by
  intro i s h l hnhi hnlo
  have hstart : DifferInHiLo s h l s { s with hi := h, lo := l } := ⟨rfl, .inr ⟨rfl, rfl⟩, .inr ⟨rfl, rfl⟩⟩
  exact (differInHiLo_kept s h l).exec hstart (fun _ _ => rfl) (fun rd e => absurd e (hnhi rd))
    (fun rd e => absurd e (hnlo rd))

/-- Settles O38: the two runs start related by `DifferInRegister`, with every operand of the instruction the same. -/
theorem onlyNamedRegistersAreRead : Obligations.OnlyNamedRegistersAreRead := by
  intro i s r v hr
  have hoperands : ∀ k ∈ sources i, (s.writeReg r v).readReg k = s.readReg k := fun k hk =>
    State.readReg_writeReg_other s (ne_of_mem_of_not_mem hk hr) v
  exact (differInRegister_kept s r v).exec (differInRegister_writeReg s r v) hoperands
    (fun _ _ => State.writeReg_hi s r v) (fun _ _ => State.writeReg_lo s r v)

/-- Settles O19: by the laws of the register file; a write to x[0] is the identity, and so is any sequence of them. -/
theorem registerZeroIsHardwired : Obligations.RegisterZeroIsHardwired := fun s =>
  ⟨State.readReg_zero s, List.foldl_fixed' (State.writeReg_zero s), State.readReg_writeReg_heldIn s,
    fun _ _ v hk => State.readReg_writeReg_other s hk v⟩

/-- Settles O20: the empty memory reads as the default at every address, and the other fields are R32's values outright. -/
theorem resetLeavesTheStatedValues : Obligations.ResetLeavesTheStatedValues := fun c entry =>
  ⟨State.readReg_resetWith c entry, rfl, rfl, rfl, fun _ => rfl, rfl, rfl⟩

/-- Settles O21: the core's reset is the reset state of the spec's default configuration, which is well-formed. -/
theorem resetMeetsTheInvariant : Obligations.ResetMeetsTheInvariant :=
  ⟨fun _ entry hc => State.resetWith_inv entry hc, State.resetWith_inv launchEntry (by decide)⟩

end Sys2Proof.Machine
end

section
/-! SUPPORT. The memory of 20_memory.md: the invariant, which every named update keeps; what a write leaves unchanged and
what is read back after it; what a completed instruction leaves of memory; and from these the statements. -/

namespace Sys2Proof.Machine

variable {i : Instr} {s t : State}

/-! ## The invariant (R50, R51) -/

namespace State.Inv

variable (h : s.Inv)
include h

theorem writeReg (r : RegIdx) (v : Word) : (s.writeReg r v).Inv where
  memory := by simpa using h.memory
  zero := (State.writeReg_slot_zero s r v).trans h.zero
  config := by simpa using h.config

theorem setHi (v : Word) : (s.setHi v).Inv := ⟨h.memory, h.zero, h.config⟩

theorem setLo (v : Word) : (s.setLo v).Inv := ⟨h.memory, h.zero, h.config⟩

theorem setPc (p : Word) : (s.setPc p).Inv := ⟨h.memory, h.zero, h.config⟩

theorem advance : s.advance.Inv := h.setPc s.nextPc

theorem countStep : s.countStep.Inv := ⟨h.memory, h.zero, h.config⟩

theorem writeByte (a : Word) (b : Byte) : (s.writeByte a b).Inv := ⟨memory_wf_writeByte a b h.memory, h.zero, h.config⟩

theorem writeHalf (a : Word) (v : Half) : (s.writeHalf a v).Inv := ⟨memory_wf_writeHalf a v h.memory, h.zero, h.config⟩

theorem writeWord (a v : Word) : (s.writeWord a v).Inv := ⟨memory_wf_writeWord a v h.memory, h.zero, h.config⟩

theorem stored {rs : RegIdx} {imm : BitVec 16} {n : Nat} (hst : Stored s rs imm n t) : t.Inv := by
  obtain ⟨-, v, rfl⟩ | ⟨-, v, rfl⟩ | ⟨-, v, rfl⟩ := hst
  · exact (h.writeByte _ v).advance
  · exact (h.writeHalf _ v).advance
  · exact (h.writeWord _ v).advance

/-- Each way to complete is made of named updates, and they keep the invariant. -/
theorem exec_next (he : exec i s = .next t) : t.Inv := by
  obtain ⟨r, v, -, -, -, rfl⟩ | ⟨hi, lo, -, -, -, rfl, -⟩ | ⟨target, -, -, -, rfl, -⟩ | ⟨target, -, -, -, rfl, -⟩ |
    ⟨rs, imm, n, -, -, -, hst⟩ := exec_next_cases he
  · exact (h.writeReg r v).advance
  · exact ((h.setHi hi).setLo lo).advance
  · exact h.setPc target
  · exact (h.writeReg linkReg s.nextPc).setPc target
  · exact h.stored hst

end State.Inv

/-! ## What a write leaves unchanged (R55) -/

theorem State.writeByte_sameMemoryOutside (s : State) (a : Word) (b : Byte) :
    SameMemoryOutside a 1 s (s.writeByte a b) := by
  intro k hk
  have h0 : k ≠ a := by simpa using hk 0
  simp [State.readByte_writeByte, h0]

theorem State.writeHalf_sameMemoryOutside (s : State) (a : Word) (v : Half) :
    SameMemoryOutside a 2 s (s.writeHalf a v) := by
  intro k hk
  have h0 : k ≠ a := by simpa using hk 0
  have h1 : k ≠ a + 1#32 := hk 1 (by decide)
  simp [State.readByte_writeHalf, h0, h1]

theorem State.writeWord_sameMemoryOutside (s : State) (a v : Word) :
    SameMemoryOutside a 4 s (s.writeWord a v) := by
  intro k hk
  have h0 : k ≠ a := by simpa using hk 0
  have h1 : k ≠ a + 1#32 := hk 1 (by decide)
  have h2 : k ≠ a + 2#32 := hk 2 (by decide)
  have h3 : k ≠ a + 3#32 := hk 3 (by decide)
  simp [State.readByte_writeWord, h0, h1, h2, h3]

theorem Stored.sameMemoryOutside {rs : RegIdx} {imm : BitVec 16} {n : Nat} (h : Stored s rs imm n t) :
    SameMemoryOutside (effectiveAddress (s.readReg rs) imm) n s t := by
  obtain ⟨rfl, v, rfl⟩ | ⟨rfl, v, rfl⟩ | ⟨rfl, v, rfl⟩ := h
  · exact s.writeByte_sameMemoryOutside _ v
  · exact s.writeHalf_sameMemoryOutside _ v
  · exact s.writeWord_sameMemoryOutside _ v

/-- An instruction that completes leaves all of memory alone, or it is a store and leaves alone what is outside its
footprint (R71). -/
theorem exec_next_memory (h : exec i s = .next t) :
    SameMemory s t ∨ ∃ rs imm n, storeFootprint i = some (rs, imm, n) ∧
      SameMemoryOutside (effectiveAddress (s.readReg rs) imm) n s t := by
  obtain ⟨r, v, -, -, -, rfl⟩ | ⟨hi, lo, -, -, -, rfl, -⟩ | ⟨target, -, -, -, rfl, -⟩ | ⟨target, -, -, -, rfl, -⟩ |
    ⟨rs, imm, n, -, -, hf, hst⟩ := exec_next_cases h
  case inr.inr.inr.inr => exact .inr ⟨rs, imm, n, hf, hst.sameMemoryOutside⟩
  all_goals exact .inl fun a => by simp

/-! ## Reading back what was written (R53 to R55) -/

theorem State.readByte_writeByte_same (s : State) (a : Word) (b : Byte) : (s.writeByte a b).readByte a = b := by
  simp [State.readByte_writeByte]

theorem State.readHalf_writeHalf_same (s : State) (a : Word) (v : Half) : (s.writeHalf a v).readHalf a = v := by
  simp [State.readHalf, State.readByte_writeHalf]

theorem State.readWord_writeWord_same (s : State) (a v : Word) : (s.writeWord a v).readWord a = v := by
  simp [State.readWord, State.readByte_writeWord]

/-! ## A word store (R228 of 47_load_store.md) -/

theorem execSw_next {rt rs : RegIdx} {imm : BitVec 16} (h : execSw rt imm rs s = .next t) :
    t = (s.writeWord (effectiveAddress (s.readReg rs) imm) (s.readReg rt)).advance :=
  storeResult_next h

/-! ## The statements of 20_memory.md -/

/-- Settles O31: a completed step is its instruction's effect and then the count, and each keeps the invariant. -/
theorem stepKeepsTheInvariant : Obligations.StepKeepsTheInvariant := by
  intro s t hs h
  obtain ⟨-, -, i, u, -, hu, rfl⟩ := step_next_cases h
  exact (hs.exec_next hu).countStep

/-- Settles O36: a byte that differs rules out an unchanged memory, and lies in the footprint of the store. -/
theorem onlyStoresChangeMemory : Obligations.OnlyStoresChangeMemory := by
  intro s t a h hne
  obtain ⟨-, -, i, u, hd, hu, rfl⟩ := step_next_cases h
  obtain hsame | ⟨rs, imm, n, hf, hout⟩ := exec_next_memory hu
  · exact absurd (hsame a) hne
  · refine ⟨i, rs, imm, n, hd, hf, ?_⟩
    by_contra! hoff
    exact hne (hout a hoff)

/-- Settles O39: by the laws of reading back and of what a write leaves unchanged, which hold also where the access
wraps. -/
theorem memoryReadsBackWhatWasWritten : Obligations.MemoryReadsBackWhatWasWritten := fun s a b h w =>
  ⟨⟨s.readByte_writeByte_same a b, s.writeByte_sameMemoryOutside a b⟩,
    fun _ => ⟨s.readHalf_writeHalf_same a h, s.writeHalf_sameMemoryOutside a h⟩,
    fun _ => ⟨s.readWord_writeWord_same a w, s.writeWord_sameMemoryOutside a w⟩⟩

/-- Settles O42: the store leaves pc at the address of its word, so that the next fetch reads the word back. -/
theorem storeIntoTheInstructionStreamIsFetched : Obligations.StoreIntoTheInstructionStreamIsFetched := by
  intro s t rt rs imm hd ha h
  obtain ⟨-, -, i, u, hd', hu, rfl⟩ := step_next_cases h
  obtain rfl : .sw rt imm rs = i := Except.ok.inj (hd.symm.trans hd')
  obtain rfl := execSw_next hu
  rw [ha]
  exact s.readWord_writeWord_same (s.pc + 4#32) (s.readReg rt)

/-- Settles O27: nothing is fetched at such a pc, and the running step is the fault of Fetch. -/
theorem misalignedFetchIsFatal : Obligations.MisalignedFetchIsFatal := by
  intro s hr ha
  rw [step_running hr, fetchDecode_misaligned ha]

end Sys2Proof.Machine
end

section
/-! SUPPORT. The encoding of 30_encoding.md: the fields in which two words agree that agree in an instruction's used bits;
the words the decoder refuses; decoder and encoder as inverses up to the ignored bits; and from these the statements. -/

namespace Sys2Proof

/-! ## Agreement under the mask of a field (R82 to R84) -/

/-- The bits of `word[31:26]`. -/
def opcodeBits : Word := 0xFC000000#32
/-- The bits of `word[25:21]`. -/
def rsBits : Word := 0x03E00000#32
/-- The bits of `word[20:16]`. -/
def rtBits : Word := 0x001F0000#32
/-- The bits of `word[15:11]`. -/
def rdBits : Word := 0x0000F800#32
/-- The bits of `word[10:6]`. -/
def shamtBits : Word := 0x000007C0#32
/-- The bits of `word[5:0]`. -/
def functBits : Word := 0x0000003F#32
/-- The bits of `word[15:0]`. -/
def immBits : Word := 0x0000FFFF#32
/-- The bits of `word[25:0]`. -/
def offsetBits : Word := 0x03FFFFFF#32

section
variable {w v m n : Word}

theorem agree_iff_bits : w &&& m = v &&& m ↔ ∀ k, m.getLsbD k = true → w.getLsbD k = v.getLsbD k := by
  constructor
  · intro h k hk
    simpa [hk] using congrArg (·.getLsbD k) h
  · intro h
    apply BitVec.eq_of_getLsbD_eq
    intro k _
    cases hm : m.getLsbD k
    · simp [hm]
    · simp [hm, h k hm]

theorem agree_or_iff : w &&& (m ||| n) = v &&& (m ||| n) ↔ w &&& m = v &&& m ∧ w &&& n = v &&& n := by
  simp only [agree_iff_bits, BitVec.getLsbD_or, Bool.or_eq_true, or_imp, forall_and]

/-- Agreement under the mask of one field is equality of that field. -/
theorem agree_iff_field (lo len : Nat) (hm : m = (BitVec.allOnes len).setWidth 32 <<< lo) (hlen : lo + len ≤ 32) :
    w &&& m = v &&& m ↔ w.extractLsb' lo len = v.extractLsb' lo len := by
  rw [agree_iff_bits]
  constructor
  · intro h
    ext k hk
    simpa using h (lo + k) (by simp [hm]; omega)
  · intro h k hk
    obtain ⟨j, rfl⟩ : ∃ j, k = lo + j := ⟨k - lo, by simp [hm] at hk; omega⟩
    have hj : j < len := by simp [hm] at hk; omega
    simpa [hj] using congrArg (·.getLsbD j) h

@[simp] theorem agree_opcodeBits : w &&& opcodeBits = v &&& opcodeBits ↔ opcodeOf w = opcodeOf v :=
  agree_iff_field 26 6 rfl (by decide)

@[simp] theorem agree_rsBits : w &&& rsBits = v &&& rsBits ↔ rsOf w = rsOf v := agree_iff_field 21 5 rfl (by decide)

@[simp] theorem agree_rtBits : w &&& rtBits = v &&& rtBits ↔ rtOf w = rtOf v := agree_iff_field 16 5 rfl (by decide)

@[simp] theorem agree_rdBits : w &&& rdBits = v &&& rdBits ↔ rdOf w = rdOf v := agree_iff_field 11 5 rfl (by decide)

@[simp] theorem agree_shamtBits : w &&& shamtBits = v &&& shamtBits ↔ shamtOf w = shamtOf v :=
  agree_iff_field 6 5 rfl (by decide)

@[simp] theorem agree_functBits : w &&& functBits = v &&& functBits ↔ functOf w = functOf v :=
  agree_iff_field 0 6 rfl (by decide)

@[simp] theorem agree_immBits : w &&& immBits = v &&& immBits ↔ immOf w = immOf v := agree_iff_field 0 16 rfl (by decide)

@[simp] theorem agree_offsetBits : w &&& offsetBits = v &&& offsetBits ↔ offsetOf w = offsetOf v :=
  agree_iff_field 0 26 rfl (by decide)

end

/-! ## Agreement with an encoding in the used bits (R86): one lemma for each layout and mask -/

section
variable {w : Word} {op f : BitVec 6} {rs rt rd : RegIdx} {sh : BitVec 5} {imm : BitVec 16} {off : BitVec 26}

theorem agree_register_noShamt :
    w &&& 0xFFFFF83F#32 = registerWord rs rt rd sh f &&& 0xFFFFF83F#32 ↔
      opcodeOf w = 0x00#6 ∧ functOf w = f ∧ rsOf w = rs ∧ rtOf w = rt ∧ rdOf w = rd := by
  rw [show 0xFFFFF83F#32 = opcodeBits ||| (functBits ||| (rsBits ||| (rtBits ||| rdBits))) from rfl]
  simp [agree_or_iff]

theorem agree_register_noRs :
    w &&& 0xFC1FFFFF#32 = registerWord rs rt rd sh f &&& 0xFC1FFFFF#32 ↔
      opcodeOf w = 0x00#6 ∧ functOf w = f ∧ rtOf w = rt ∧ rdOf w = rd ∧ shamtOf w = sh := by
  rw [show 0xFC1FFFFF#32 = opcodeBits ||| (functBits ||| (rtBits ||| (rdBits ||| shamtBits))) from rfl]
  simp [agree_or_iff]

theorem agree_register_rsRt :
    w &&& 0xFFFF003F#32 = registerWord rs rt rd sh f &&& 0xFFFF003F#32 ↔
      opcodeOf w = 0x00#6 ∧ functOf w = f ∧ rsOf w = rs ∧ rtOf w = rt := by
  rw [show 0xFFFF003F#32 = opcodeBits ||| (functBits ||| (rsBits ||| rtBits)) from rfl]
  simp [agree_or_iff]

theorem agree_register_rsRd :
    w &&& 0xFFE0F83F#32 = registerWord rs rt rd sh f &&& 0xFFE0F83F#32 ↔
      opcodeOf w = 0x00#6 ∧ functOf w = f ∧ rsOf w = rs ∧ rdOf w = rd := by
  rw [show 0xFFE0F83F#32 = opcodeBits ||| (functBits ||| (rsBits ||| rdBits)) from rfl]
  simp [agree_or_iff]

theorem agree_register_rd :
    w &&& 0xFC00F83F#32 = registerWord rs rt rd sh f &&& 0xFC00F83F#32 ↔
      opcodeOf w = 0x00#6 ∧ functOf w = f ∧ rdOf w = rd := by
  rw [show 0xFC00F83F#32 = opcodeBits ||| (functBits ||| rdBits) from rfl]
  simp [agree_or_iff]

theorem agree_register_rs :
    w &&& 0xFFE0003F#32 = registerWord rs rt rd sh f &&& 0xFFE0003F#32 ↔
      opcodeOf w = 0x00#6 ∧ functOf w = f ∧ rsOf w = rs := by
  rw [show 0xFFE0003F#32 = opcodeBits ||| (functBits ||| rsBits) from rfl]
  simp [agree_or_iff]

theorem agree_register_functOnly :
    w &&& 0xFC00003F#32 = registerWord rs rt rd sh f &&& 0xFC00003F#32 ↔ opcodeOf w = 0x00#6 ∧ functOf w = f := by
  rw [show 0xFC00003F#32 = opcodeBits ||| functBits from rfl]
  simp [agree_or_iff]

theorem agree_immediate_full :
    w &&& 0xFFFFFFFF#32 = immediateWord op rs rt imm &&& 0xFFFFFFFF#32 ↔
      opcodeOf w = op ∧ rsOf w = rs ∧ rtOf w = rt ∧ immOf w = imm := by
  rw [show 0xFFFFFFFF#32 = opcodeBits ||| (rsBits ||| (rtBits ||| immBits)) from rfl]
  simp [agree_or_iff]

theorem agree_immediate_noRt :
    w &&& 0xFFE0FFFF#32 = immediateWord op rs rt imm &&& 0xFFE0FFFF#32 ↔
      opcodeOf w = op ∧ rsOf w = rs ∧ immOf w = imm := by
  rw [show 0xFFE0FFFF#32 = opcodeBits ||| (rsBits ||| immBits) from rfl]
  simp [agree_or_iff]

theorem agree_immediate_noRs :
    w &&& 0xFC1FFFFF#32 = immediateWord op rs rt imm &&& 0xFC1FFFFF#32 ↔
      opcodeOf w = op ∧ rtOf w = rt ∧ immOf w = imm := by
  rw [show 0xFC1FFFFF#32 = opcodeBits ||| (rtBits ||| immBits) from rfl]
  simp [agree_or_iff]

theorem agree_jump_full :
    w &&& 0xFFFFFFFF#32 = jumpWord op off &&& 0xFFFFFFFF#32 ↔ opcodeOf w = op ∧ offsetOf w = off := by
  rw [show 0xFFFFFFFF#32 = opcodeBits ||| offsetBits from rfl]
  simp [agree_or_iff]

theorem agree_jump_opcodeOnly :
    w &&& 0xFC000000#32 = jumpWord op off &&& 0xFC000000#32 ↔ opcodeOf w = op := by
  rw [show 0xFC000000#32 = opcodeBits from rfl]
  simp

end

/-! ## The decoder's refusals (R91 to R93) -/

/-- The assigned function codes of 30_encoding.md R92. -/
def registerFuncts : List (BitVec 6) :=
  [0x00#6, 0x02#6, 0x03#6, 0x04#6, 0x06#6, 0x07#6, 0x08#6, 0x09#6, 0x0C#6, 0x0D#6, 0x10#6, 0x11#6, 0x12#6, 0x13#6] ++
  [0x18#6, 0x19#6, 0x1A#6, 0x1B#6, 0x20#6, 0x21#6, 0x22#6, 0x23#6, 0x24#6, 0x25#6, 0x26#6, 0x27#6, 0x2A#6, 0x2B#6]

section
variable {c : Config} {w : Word} {i : Instr}

theorem decodeRegister_error_iff : (∃ r, decodeRegister w = .error r) ↔ functOf w ∉ registerFuncts := by
  unfold decodeRegister
  split <;> simp_all [registerFuncts]

theorem decodeWord_of_opcode_zero (h : opcodeOf w = 0x00#6) : decodeWord c w = decodeRegister w := by
  simp [decodeWord, h]

theorem decodeWord_of_primary (h : opcodeOf w ∈ primaryOpcodes) (h0 : opcodeOf w ≠ 0x00#6) :
    ∃ i, decodeWord c w = .ok i := by
  unfold decodeWord
  split
  case h_1 => contradiction
  case h_24 => simp_all [primaryOpcodes]
  all_goals exact ⟨_, rfl⟩

theorem decodeWord_of_not_primary (h : opcodeOf w ∉ primaryOpcodes) :
    decodeWord c w =
      if opcodeOf w = c.trapOpcode then .ok .trap else .error (.unassignedOpcode (opcodeOf w)) := by
  unfold decodeWord
  split
  case h_24 => rfl
  all_goals simp_all [primaryOpcodes]

/-- The decoder refuses a word exactly when its opcode, or its function code under opcode 0, is unassigned. -/
theorem decodeWord_error_iff :
    (∃ r, decodeWord c w = .error r) ↔
      (opcodeOf w ∉ primaryOpcodes ∧ opcodeOf w ≠ c.trapOpcode) ∨
        (opcodeOf w = 0x00#6 ∧ functOf w ∉ registerFuncts) := by
  have zero_mem : 0x00#6 ∈ primaryOpcodes := by decide
  by_cases h0 : opcodeOf w = 0x00#6
  · simp [decodeWord_of_opcode_zero h0, decodeRegister_error_iff, h0, zero_mem]
  by_cases hp : opcodeOf w ∈ primaryOpcodes
  · obtain ⟨i, hi⟩ := decodeWord_of_primary (c := c) hp h0
    simp [hi, hp, h0]
  · simp only [decodeWord_of_not_primary hp, hp, h0]
    split_ifs with ht <;> simp [ht]

end

/-! ## Decoder and encoder -/

section
variable {c : Config} {w : Word} {i : Instr}

/-- A word that agrees with the encoding of an instruction in its used bits decodes to it; the configuration matters for
`trap` only, whose opcode must be no other instruction's. -/
theorem decodeWord_of_agree (ht : i = .trap → c.trapOpcode ∉ primaryOpcodes)
    (h : w &&& usedBits i = encode c i &&& usedBits i) : decodeWord c w = .ok i := by
  cases i
  case add | addu | sub | subu | and | or | xor | nor | slt | sltu | sllv | srlv | srav =>
    obtain ⟨ho, hf, rfl, rfl, rfl⟩ := agree_register_noShamt.1 h
    simp [decodeWord_of_opcode_zero ho, decodeRegister, hf]
  case sll | srl | sra =>
    obtain ⟨ho, hf, rfl, rfl, rfl⟩ := agree_register_noRs.1 h
    simp [decodeWord_of_opcode_zero ho, decodeRegister, hf]
  case mult | multu | div | divu =>
    obtain ⟨ho, hf, rfl, rfl⟩ := agree_register_rsRt.1 h
    simp [decodeWord_of_opcode_zero ho, decodeRegister, hf]
  case jalr =>
    obtain ⟨ho, hf, rfl, rfl⟩ := agree_register_rsRd.1 h
    simp [decodeWord_of_opcode_zero ho, decodeRegister, hf]
  case mfhi | mflo =>
    obtain ⟨ho, hf, rfl⟩ := agree_register_rd.1 h
    simp [decodeWord_of_opcode_zero ho, decodeRegister, hf]
  case mthi | mtlo | jr =>
    obtain ⟨ho, hf, rfl⟩ := agree_register_rs.1 h
    simp [decodeWord_of_opcode_zero ho, decodeRegister, hf]
  case syscall | brk =>
    obtain ⟨ho, hf⟩ := agree_register_functOnly.1 h
    simp [decodeWord_of_opcode_zero ho, decodeRegister, hf]
  case addi | addiu | slti | sltiu | andi | ori | xori | beq | bne | lb | lh | lw | lbu | lhu | sb | sh | sw =>
    obtain ⟨ho, rfl, rfl, rfl⟩ := agree_immediate_full.1 h
    simp [decodeWord, ho]
  case blez | bgtz =>
    obtain ⟨ho, rfl, rfl⟩ := agree_immediate_noRt.1 h
    simp [decodeWord, ho]
  case lui =>
    obtain ⟨ho, rfl, rfl⟩ := agree_immediate_noRs.1 h
    simp [decodeWord, ho]
  case j | jal =>
    obtain ⟨ho, rfl⟩ := agree_jump_full.1 h
    simp [decodeWord, ho]
  case trap =>
    have ho : opcodeOf w = c.trapOpcode := agree_jump_opcodeOnly.1 h
    rw [decodeWord_of_not_primary (ho ▸ ht rfl), if_pos ho]

theorem agree_of_decodeRegister (ho : opcodeOf w = 0x00#6) (h : decodeRegister w = .ok i) :
    w &&& usedBits i = encode c i &&& usedBits i := by
  unfold decodeRegister at h
  split at h <;> cases h
  all_goals simp [usedBits, encode, agree_register_noShamt, agree_register_noRs, agree_register_rsRt,
    agree_register_rsRd, agree_register_rd, agree_register_rs, agree_register_functOnly, *]

/-- A word that decodes to an instruction agrees with its encoding in its used bits. -/
theorem agree_of_decodeWord (h : decodeWord c w = .ok i) : w &&& usedBits i = encode c i &&& usedBits i := by
  unfold decodeWord at h
  split at h
  case h_1 ho => exact agree_of_decodeRegister ho h
  case h_24 =>
    split at h
    · next ht => cases h; exact agree_jump_opcodeOnly.2 ht
    · cases h
  all_goals
    cases h
    simp [usedBits, encode, agree_immediate_full, agree_immediate_noRt, agree_immediate_noRs, agree_jump_full, *]

theorem decodeRegister_ne_trap : decodeRegister w ≠ .ok .trap := by
  unfold decodeRegister
  split <;> simp

/-- `trap` is the table's last row (log 6): a word decodes to it only when no other row has its opcode. -/
theorem trapOpcode_not_primary_of_decodeWord (h : decodeWord c w = .ok .trap) : c.trapOpcode ∉ primaryOpcodes := by
  rw [← agree_jump_opcodeOnly.1 (agree_of_decodeWord h)]
  intro hp
  unfold decodeWord at h
  split at h
  case h_1 => exact decodeRegister_ne_trap h
  case h_24 => simp_all [primaryOpcodes]
  all_goals cases h

end

/-! ## The lists of R91 and R92 as numbers -/

/-- The unassigned opcodes of 30_encoding.md R91, with TRAP_OPCODE at its default. -/
theorem unassigned_opcode_iff (op : BitVec 6) :
    op ∉ primaryOpcodes ∧ op ≠ 0x1A#6 ↔
      op.toNat = 0x01 ∨ (0x10 ≤ op.toNat ∧ op.toNat ≤ 0x19) ∨ (0x1B ≤ op.toNat ∧ op.toNat ≤ 0x1F) ∨ op.toNat = 0x22 ∨
      op.toNat = 0x26 ∨ op.toNat = 0x27 ∨ op.toNat = 0x2A ∨ 0x2C ≤ op.toNat := by
  revert op
  decide

/-- The unassigned function codes of 30_encoding.md R92. -/
theorem unassigned_funct_iff (f : BitVec 6) :
    f ∉ registerFuncts ↔
      f.toNat = 0x01 ∨ f.toNat = 0x05 ∨ f.toNat = 0x0A ∨ f.toNat = 0x0B ∨ f.toNat = 0x0E ∨ f.toNat = 0x0F ∨
      (0x14 ≤ f.toNat ∧ f.toNat ≤ 0x17) ∨ (0x1C ≤ f.toNat ∧ f.toNat ≤ 0x1F) ∨ f.toNat = 0x28 ∨ f.toNat = 0x29 ∨
      0x2C ≤ f.toNat := by
  revert f
  decide

end Sys2Proof

namespace Sys2Proof.Machine

/-- A running step at an aligned pc whose word does not decode. -/
theorem step_decodeError {s : State} {r : DecodeReject} (hr : s.status = .running) (ha : s.pc.toNat % 4 = 0)
    (h : decodeWord s.config s.fetchWord = .error r) : step s = .fault (.decodeError s.pc s.fetchWord) := by
  rw [step_running hr, fetchDecode_aligned ha, h]

/-! ## The statements of 30_encoding.md -/

/-- Settles O22: an encoding agrees with itself in the used bits. -/
theorem decodeOfEncodeIsIdentity : Obligations.DecodeOfEncodeIsIdentity := fun c _ hc =>
  decodeWord_of_agree (fun _ ht => c.trapOpcode_ne hc ht rfl) rfl

/-- Settles O23: a word that decodes agrees with the encoding, and so does every word that agrees with it. -/
theorem decodedWordsDifferOnlyInIgnoredBits : Obligations.DecodedWordsDifferOnlyInIgnoredBits := by
  intro c w i h
  have hagree := agree_of_decodeWord h
  refine ⟨hagree.symm, fun w' hw' => decodeWord_of_agree ?_ (hw'.trans hagree)⟩
  rintro rfl
  exact trapOpcode_not_primary_of_decodeWord h

/-- Settles O24: the decoder refuses the words whose opcode or function code is unassigned, whose numbers R91 and R92
list, and a refused word is the fault of Decode. -/
theorem unassignedEncodingsAreDecodeErrors : Obligations.UnassignedEncodingsAreDecodeErrors := by
  intro c w ht opcode funct unassigned
  have hrefused : (∃ r, decodeWord c w = .error r) ↔ unassigned := by
    rw [decodeWord_error_iff, ht, unassigned_opcode_iff, unassigned_funct_iff, ← BitVec.toNat_inj]
    simp only [or_assoc]
    rfl
  refine ⟨hrefused, ?_⟩
  rintro s rfl hr ha rfl hu
  obtain ⟨r, hd⟩ := hrefused.2 hu
  exact step_decodeError hr ha hd

/-- Settles O25: the decoder evaluates on each of the fourteen words. -/
theorem sampleWordsDecode : Obligations.SampleWordsDecode := by
  unfold Obligations.SampleWordsDecode
  decide

end Sys2Proof.Machine
end

section
/-! SUPPORT. The pipeline of 40_pipeline.md: the step as the effect of the decoded instruction; what a completed
instruction writes of the registers, HI and LO; the trace line and its text; and from these the statements. -/

namespace Sys2Proof.Machine

variable {i : Instr} {s t : State}

/-! ## Decode and Execute (R112, R120) -/

/-- Four bytes decode to what the word they make decodes to. -/
theorem decodeWord_of_decodeBytes {c : Config} {b0 b1 b2 b3 : Byte} {rest : List Byte}
    (h : decodeBytes c [b0, b1, b2, b3] = .ok (i, rest)) :
    decodeWord c (joinWord c.byteOrder b0 b1 b2 b3) = .ok i := by
  cases hd : decodeWord c (joinWord c.byteOrder b0 b1 b2 b3) with
  | ok j =>
    simp only [decodeBytes, hd, Except.ok.injEq, Prod.mk.injEq] at h
    rw [h.1]
  | error r => simp [decodeBytes, hd] at h

/-- A running step at an aligned pc is the decoded instruction's effect, counted. -/
theorem step_decoded (hr : s.status = .running) (ha : s.pc.toNat % 4 = 0)
    (hd : decodeWord s.config s.fetchWord = .ok i) : step s = countCompleted (exec i s) := by
  rw [step_running hr, fetchDecode_aligned ha, hd]

/-! ## WriteBack (R116, D7) -/

theorem Stored.sameRegs {rs : RegIdx} {imm : BitVec 16} {n : Nat} (h : Stored s rs imm n t) : SameRegs s t := by
  obtain ⟨-, v, rfl⟩ | ⟨-, v, rfl⟩ | ⟨-, v, rfl⟩ := h
  all_goals exact fun _ => rfl

theorem Stored.sameHiLo {rs : RegIdx} {imm : BitVec 16} {n : Nat} (h : Stored s rs imm n t) : SameHiLo s t := by
  obtain ⟨-, v, rfl⟩ | ⟨-, v, rfl⟩ | ⟨-, v, rfl⟩ := h
  all_goals exact ⟨rfl, rfl⟩

/-- An instruction that completes leaves every general register but its destination. -/
theorem exec_next_readReg (h : exec i s = .next t) {r : RegIdx} (hr : destination i ≠ some r) :
    t.readReg r = s.readReg r := by
  obtain ⟨k, v, hk, -, -, rfl⟩ | ⟨hi, lo, -, -, -, rfl, -⟩ | ⟨target, -, -, -, rfl, -⟩ | ⟨target, hk, -, -, rfl, -⟩ |
    ⟨rs, imm, n, -, -, -, hst⟩ := exec_next_cases h
  · have hne : r ≠ k := fun e => hr (e ▸ hk)
    simp [State.readReg_writeReg_other s hne]
  · simp
  · simp
  · have hne : r ≠ linkReg := fun e => hr (e ▸ hk)
    simp [State.readReg_writeReg_other s hne]
  · exact hst.sameRegs r

/-- An instruction that completes leaves HI unless it may write it, and LO likewise. -/
theorem exec_next_hiLo (h : exec i s = .next t) : (t.hi = s.hi ∨ MayWriteHi i) ∧ (t.lo = s.lo ∨ MayWriteLo i) := by
  obtain ⟨k, v, -, -, -, rfl⟩ | ⟨hi, lo, -, -, -, rfl, hhi, hlo⟩ | ⟨target, -, -, -, rfl, -⟩ |
    ⟨target, -, -, -, rfl, -⟩ | ⟨rs, imm, n, -, -, -, hst⟩ := exec_next_cases h
  case inr.inl => exact ⟨by simpa using hhi, by simpa using hlo⟩
  case inr.inr.inr.inr => exact ⟨.inl hst.sameHiLo.1, .inl hst.sameHiLo.2⟩
  all_goals exact ⟨.inl (by simp), .inl (by simp)⟩

/-! ## The trace line (R118) -/

/-- Every register an instruction reads is among the operands of its trace line, with the value it has. -/
theorem source_mem_traceOperands (pc raw : Word) {r : RegIdx} (hr : r ∈ sources i) :
    TraceOperand.register r (s.readReg r) ∈ traceOperands s pc raw i := by
  revert r
  cases i
  -- For each instruction both lists are literal, and the one holds the registers of the other.
  all_goals simp [sources, traceOperands]

/-- Every register among the operands of a trace line is shown with the value it has. -/
theorem value_of_mem_traceOperands {pc raw : Word} {o : TraceOperand} (ho : o ∈ traceOperands s pc raw i) :
    ∀ r v, o = .register r v → v = s.readReg r := by
  revert o
  cases i
  -- For each instruction the list is literal, and reads the registers it holds from `s`.
  all_goals simp [traceOperands]

theorem traceLine_of_next (h : step s = .next t) (hd : decodeWord s.config s.fetchWord = .ok i) :
    traceLine s = some ⟨s.pc, s.fetchWord, mnemonic i, traceOperands s s.pc s.fetchWord i⟩ := by
  simp [traceLine, h, renderWord, hd]

/-! ## The text of a line (R118, D23) -/

theorem significantDigits_le_eight (v : Word) : significantDigits v ≤ 8 := by
  have hle : ((List.range 8).filter fun k => decide (16 ^ k ≤ v.toNat)).length ≤ 8 :=
    (List.length_filter_le _ _).trans_eq List.length_range
  exact max_le (by decide) hle

/-- A word never needs more than eight digits, so `hex8` shows exactly eight. -/
theorem toList_hex8 (part : TracePart) (v : Word) :
    (hex8 part v).toList =
      (List.range 8).map fun k => hexDigit (Config.traceUpper part) (v.toNat / 16 ^ (7 - k) % 16) := by
  simp [hex8, hexText, max_eq_left (significantDigits_le_eight v)]

/-- The sixteen digits, in both letter cases. -/
theorem getElem?_hexDigits (upper : Bool) {n : Nat} (hn : n < 16) :
    (if upper then "0123456789ABCDEF" else "0123456789abcdef").toList[n]? = some (hexDigit upper n) := by
  cases upper <;> interval_cases n <;> rfl

theorem TraceLine.text_eq (line : TraceLine) :
    line.text =
      Config.traceSeparator line.mnemonic 0 ++ hex8 .pc line.pc ++ Config.traceSeparator line.mnemonic 1 ++
        hex8 .raw line.raw ++ Config.traceSeparator line.mnemonic 2 ++ line.mnemonic ++
        separated line.mnemonic 3 (line.shownOperands.map TraceOperand.text) := by
  simp [TraceLine.text, separated, String.append_assoc]

/-! ## The statements of 40_pipeline.md -/

/-- Settles O35: by what each way to complete leaves of the registers, HI and LO. -/
theorem onlyListedRegistersAreWritten : Obligations.OnlyListedRegistersAreWritten := by
  intro i s t h
  obtain ⟨hhi, hlo⟩ := exec_next_hiLo h
  exact ⟨fun _ hr => exec_next_readReg h hr, hhi.resolve_left, hlo.resolve_left⟩

/-- Settles O45: the line of a completed step is the rendering of the instruction that completed. -/
theorem traceLineShowsValuesAsRead : Obligations.TraceLineShowsValuesAsRead := by
  refine fun s => ⟨fun t h => ?_, fun _ => traceLine_of_fault, fun _ => traceLine_of_refused⟩
  obtain ⟨-, -, i, -, hd, -⟩ := step_next_cases h
  exact ⟨_, i, traceLine_of_next h hd, hd, rfl, rfl, rfl, fun _ => source_mem_traceOperands s.pc s.fetchWord,
    fun r v hm => value_of_mem_traceOperands hm r v rfl⟩

/-- Settles O26: the step is `countCompleted` of the instruction's effect, for each of its three outcomes. -/
theorem stepRunsTheDecodedInstruction : Obligations.StepRunsTheDecodedInstruction := by
  intro s i rest hr ha hb
  have hstep : step s = countCompleted (exec i s) := step_decoded hr ha (decodeWord_of_decodeBytes hb)
  refine ⟨fun t h => ?_, fun f h => ?_, fun q h => ?_⟩
  all_goals
    rw [hstep, h]
    rfl

/-- Settles O47: the open separators stand around the three parts, and `hex8` shows eight digits of the number. -/
theorem traceTextShowsEightHexDigits : Obligations.TraceTextShowsEightHexDigits := by
  refine ⟨fun line => ⟨_, _, _, _, line.text_eq⟩, fun part v => ⟨by simp [toList_hex8], fun k hk => ?_⟩⟩
  rw [getElem?_hexDigits _ (Nat.mod_lt _ (by decide)), toList_hex8]
  simp [hk]

end Sys2Proof.Machine
end

section
/-! SUPPORT. The add and subtract of 41_arithmetic.md: a word that matches under a rule's mask decodes by its function
code or its opcode alone; the sum and difference of words as those of integers modulo 2^32; and from these the
statement. -/

namespace Sys2Proof.Machine

/-! ## Encodings by a match under a mask (30_encoding.md R86) -/

section
variable {v : Word} {mk : Word → Instr}

/-- A Register-type encoding: opcode 0 and a function code select the instruction. -/
theorem decodesTo_of_functMask (ho : opcodeOf v = 0x00#6)
    (h : ∀ w, functOf w = functOf v → decodeRegister w = .ok (mk w)) : DecodesTo 0xFC00003F#32 v mk := fun _ w hw =>
  (decodeWord_of_opcode_zero ((opcodeOf_of_functMask hw).trans ho)).trans (h w (functOf_of_functMask hw))

/-- An Immediate-type or Jump-type encoding: the opcode selects the instruction. -/
theorem decodesTo_of_opcodeMask (h : ∀ c w, opcodeOf w = opcodeOf v → decodeWord c w = .ok (mk w)) :
    DecodesTo 0xFC000000#32 v mk := fun c w hw => h c w (opcodeOf_of_opcodeMask hw)

end

/-! ## Sums and differences modulo 2^32 (R140 to R146) -/

/-- The immediate counts by its signed value (30_encoding.md R87). -/
theorem signImm_eq_ofInt (imm : BitVec 16) : signImm imm = BitVec.ofInt 32 imm.toInt := rfl

theorem sub_eq_ofInt (x y : Word) : x - y = BitVec.ofInt 32 ((x.toNat : Int) - y.toNat) := by
  simp [sub_eq_add_neg, BitVec.ofInt_add, BitVec.ofInt_neg]

theorem add_signImm_eq_ofInt (x : Word) (imm : BitVec 16) :
    x + signImm imm = BitVec.ofInt 32 (x.toNat + imm.toInt) := by
  simp [signImm_eq_ofInt, BitVec.ofInt_add]

/-! ## The statement of 41_arithmetic.md -/

/-- Settles O1: each of the six ends in `writeResult`, with the sum or difference of words as that of integers. -/
theorem addAndSubtractWrapAndComplete : Obligations.AddAndSubtractWrapAndComplete := by
  refine ⟨⟨?add, ?addu, ?sub, ?subu, ?addi, ?addiu⟩, fun s rd rs rt imm => ?effects⟩
  case add | addu | sub | subu =>
    refine decodesTo_of_functMask rfl fun w hw => ?_
    rw [decodeRegister, hw]
    rfl
  case addi | addiu =>
    refine decodesTo_of_opcodeMask fun c w hw => ?_
    rw [decodeWord, hw]
    rfl
  case effects =>
    simp only [← BitVec.add_def, ← sub_eq_ofInt, ← add_signImm_eq_ofInt]
    and_intros
    all_goals exact setsRegister_of_writeResult rfl

end Sys2Proof.Machine
end

section
/-! SUPPORT. The multiply, divide and HI/LO moves of 42_muldiv_hilo.md: a product read back from its two halves and when
it fits in one; the model's quotient and remainder as the library's; what the divisions answer in each case; and from
these the statements. -/

namespace Sys2Proof.Machine

variable {i : Instr} {s : State} {rs rt : RegIdx}

/-! ## The product in HI and LO (R150, R151, R158) -/

/-- The upper and lower halves of `p` in HI and LO are `p` again, read back as HI || LO. -/
theorem SetsHiLo.append_eq {p : BitVec 64} (h : SetsHiLo i s (p.extractLsb' 32 32) (p.extractLsb' 0 32)) :
    ∃ t, exec i s = .next t ∧ (t.hi ++ t.lo : BitVec 64) = p := by
  obtain ⟨t, ht, hhi, hlo, -⟩ := h
  refine ⟨t, ht, ?_⟩
  rw [hhi, hlo]
  exact BitVec.extractLsb'_append_extractLsb' (w := 32) (len := 32)

theorem execMult_setsHiLo (s : State) (rs rt : RegIdx) :
    let p := BitVec.ofInt 64 ((s.readReg rs).toInt * (s.readReg rt).toInt)
    SetsHiLo (.mult rs rt) s (p.extractLsb' 32 32) (p.extractLsb' 0 32) := setsHiLo_of_next rfl

theorem execMultu_setsHiLo (s : State) (rs rt : RegIdx) :
    let p := BitVec.ofNat 64 ((s.readReg rs).toNat * (s.readReg rt).toNat)
    SetsHiLo (.multu rs rt) s (p.extractLsb' 32 32) (p.extractLsb' 0 32) := setsHiLo_of_next rfl

/-- The signed product of two words is in the range of 64 signed bits. -/
theorem toInt_ofInt_mul_toInt (x y : Word) : (BitVec.ofInt 64 (x.toInt * y.toInt)).toInt = x.toInt * y.toInt := by
  have hle : -2 ^ 62 ≤ x.toInt * y.toInt := BitVec.le_toInt_mul_toInt
  have hge : x.toInt * y.toInt ≤ 2 ^ 62 := BitVec.toInt_mul_toInt_le
  exact BitVec.toInt_ofInt_eq_self (by decide) (by omega) (by omega)

/-- The unsigned product of two words is in the range of 64 unsigned bits. -/
theorem toNat_ofNat_mul_toNat (x y : Word) : (BitVec.ofNat 64 (x.toNat * y.toNat)).toNat = x.toNat * y.toNat := by
  have hlt : x.toNat * y.toNat < 2 ^ 32 * 2 ^ 32 := Nat.mul_lt_mul'' x.isLt y.isLt
  exact Nat.mod_eq_of_lt hlt

/-- A signed value fits in its lower word exactly when the upper word repeats the lower word's sign. -/
theorem hi_eq_signBits_iff (hi lo : Word) :
    hi = (if lo.msb then 0xFFFFFFFF#32 else 0x00000000#32) ↔
      -2 ^ 31 ≤ (hi ++ lo : BitVec 64).toInt ∧ (hi ++ lo : BitVec 64).toInt < 2 ^ 31 := by
  have hval : (hi ++ lo : BitVec 64).toInt = 2 ^ 32 * hi.toInt + lo.toNat := BitVec.toInt_append
  have hmsb : lo.msb = decide (2 ^ 31 ≤ lo.toNat) := BitVec.msb_eq_decide lo
  have hlo := lo.isLt
  rw [hval, hmsb, ← BitVec.toInt_inj]
  by_cases h : 2 ^ 31 ≤ lo.toNat
  · simp only [h, decide_true, if_true, BitVec.reduceToInt]
    omega
  · simp only [h, decide_false, Bool.false_eq_true, if_false, BitVec.reduceToInt]
    omega

/-- An unsigned value fits in its lower word exactly when the upper word is zero. -/
theorem hi_eq_zero_iff (hi lo : Word) : hi = 0x00000000#32 ↔ (hi ++ lo : BitVec 64).toNat < 2 ^ 32 := by
  have hval : (hi ++ lo : BitVec 64).toNat = hi.toNat * 2 ^ 32 + lo.toNat := by
    rw [← Nat.shiftLeft_eq, Nat.shiftLeft_add_eq_or_of_lt lo.isLt]
    rfl
  have hlo := lo.isLt
  rw [hval, ← BitVec.toNat_inj, BitVec.toNat_zero]
  omega

/-! ## Quotient and remainder (R152, R153, D11) -/

/-- Rounding toward zero divides the magnitudes and sets the sign after. -/
theorem tdiv_mul_sign (a b : Int) : a.tdiv b * b.sign = a.sign * (a.natAbs / b.natAbs : Nat) := by
  rw [← Int.sign_mul_natAbs (a.tdiv b), Int.sign_tdiv, Int.natAbs_tdiv]
  split
  case isTrue h => simp [Nat.div_eq_of_lt h]
  case isFalse =>
    obtain rfl | hb := eq_or_ne b 0
    · simp
    · have hsq : b.sign * b.sign = 1 := by rw [← Int.sign_mul, Int.sign_eq_one_of_pos (mul_self_pos.2 hb)]
      rw [mul_right_comm, mul_assoc a.sign, hsq, mul_one]
      rfl

/-- What the model writes to LO. -/
theorem ofInt_signedQuotient (a b : Word) : BitVec.ofInt 32 (signedQuotient a b) = a.sdiv b :=
  BitVec.eq_of_toInt_eq ((BitVec.toInt_ofInt _).trans (BitVec.toInt_sdiv a b).symm)

theorem signedRemainder_eq_tmod (a b : Word) : signedRemainder a b = a.toInt.tmod b.toInt := by
  rw [Int.tmod_def, signedRemainder, signedQuotient, mul_comm]

/-- What the model writes to HI. -/
theorem ofInt_signedRemainder (a b : Word) : BitVec.ofInt 32 (signedRemainder a b) = a.srem b := by
  rw [signedRemainder_eq_tmod, ← BitVec.toInt_srem, BitVec.ofInt_toInt]

/-- A remainder is zero or has the sign of the dividend. -/
theorem tmod_eq_zero_or_neg_iff (a b : Int) : a.tmod b = 0 ∨ (a.tmod b < 0 ↔ a < 0) := by
  have hsign := Int.sign_tmod a b
  split at hsign
  · exact .inl (Int.sign_eq_zero_iff_zero.1 hsign)
  · exact .inr (by rw [← Int.sign_neg_iff, hsign, Int.sign_neg_iff])

/-! ## What a division answers -/

theorem exec_div_zero (hb : s.readReg rt = 0x00000000#32) :
    exec (.div rs rt) s = .fault (.divideByZero s.pc s.fetchWord (.div rs rt)) := if_pos hb

theorem exec_div_overflow_fatal (ha : s.readReg rs = 0x80000000#32) (hb : s.readReg rt = 0xFFFFFFFF#32)
    (hc : s.config.divOverflow = .fatal) :
    exec (.div rs rt) s = .fault (.divideOverflow s.pc s.fetchWord (.div rs rt)) := by
  simp [exec, execDiv, ha, hb, hc, raise]

theorem exec_div_overflow_wrap (ha : s.readReg rs = 0x80000000#32) (hb : s.readReg rt = 0xFFFFFFFF#32)
    (hc : s.config.divOverflow = .wrap) : exec (.div rs rt) s = writeHiLo 0x00000000#32 0x80000000#32 s := by
  simp [exec, execDiv, ha, hb, hc]

theorem exec_div_ordinary (hb : s.readReg rt ≠ 0x00000000#32)
    (ho : ¬(s.readReg rs = 0x80000000#32 ∧ s.readReg rt = 0xFFFFFFFF#32)) :
    exec (.div rs rt) s =
      writeHiLo (BitVec.ofInt 32 (signedRemainder (s.readReg rs) (s.readReg rt)))
        (BitVec.ofInt 32 (signedQuotient (s.readReg rs) (s.readReg rt))) s :=
  (if_neg hb).trans (if_neg ho)

theorem exec_divu_zero (hb : s.readReg rt = 0x00000000#32) :
    exec (.divu rs rt) s = .fault (.divideByZero s.pc s.fetchWord (.divu rs rt)) := if_pos hb

theorem exec_divu_nonzero (hb : s.readReg rt ≠ 0x00000000#32) :
    exec (.divu rs rt) s =
      writeHiLo (BitVec.ofNat 32 ((s.readReg rs).toNat % (s.readReg rt).toNat))
        (BitVec.ofNat 32 ((s.readReg rs).toNat / (s.readReg rt).toNat)) s := if_neg hb

/-! ## The statements of 42_muldiv_hilo.md -/

/-- Settles O2: each product is written as its two halves. -/
theorem multiplySplitsTheExactProduct : Obligations.MultiplySplitsTheExactProduct := by
  refine ⟨⟨?mult, ?multu⟩, fun s rs rt => ⟨execMult_setsHiLo s rs rt, execMultu_setsHiLo s rs rt⟩⟩
  case mult | multu => exact decodesTo_of_functMask rfl fun w hw => by rw [decodeRegister, hw]; rfl

/-- Settles O3: the cases of the model are those of the rule, and the quotient is `signedQuotient`. -/
theorem signedDivideCompletesOrHalts : Obligations.SignedDivideCompletesOrHalts := by
  refine ⟨?encoding, fun s rs rt =>
    ⟨exec_div_zero, fun ha hb => ⟨exec_div_overflow_fatal ha hb, fun hc => ?wrap⟩, fun hb ho => ?ordinary⟩⟩
  case encoding => exact decodesTo_of_functMask rfl fun w hw => by rw [decodeRegister, hw]; rfl
  case wrap => exact setsHiLo_of_next (exec_div_overflow_wrap ha hb hc)
  case ordinary => exact ⟨_, tdiv_mul_sign _ _, setsHiLo_of_next (exec_div_ordinary hb ho)⟩

/-- Settles O4: both cases are the model's own. -/
theorem unsignedDivideCompletesOrHalts : Obligations.UnsignedDivideCompletesOrHalts := by
  refine ⟨?encoding, fun s rs rt => ⟨exec_divu_zero, fun hb => setsHiLo_of_next (exec_divu_nonzero hb)⟩⟩
  case encoding => exact decodesTo_of_functMask rfl fun w hw => by rw [decodeRegister, hw]; rfl

/-- Settles O5: HI || LO is the 64-bit product, which holds the exact one; the rest is read off the two words. -/
theorem multiplyLaws : Obligations.MultiplyLaws := by
  intro s rs rt vs vt
  refine ⟨?signed, ?unsigned, ?multComm, ?multuComm⟩
  case signed =>
    obtain ⟨t, ht, hp⟩ := (execMult_setsHiLo s rs rt).append_eq
    have hexact : (t.hi ++ t.lo : BitVec 64).toInt = vs.toInt * vt.toInt := by rw [hp, toInt_ofInt_mul_toInt]
    exact ⟨t, ht, hexact, hexact ▸ hi_eq_signBits_iff t.hi t.lo⟩
  case unsigned =>
    obtain ⟨t, ht, hp⟩ := (execMultu_setsHiLo s rs rt).append_eq
    have hexact : (t.hi ++ t.lo : BitVec 64).toNat = vs.toNat * vt.toNat := by rw [hp, toNat_ofNat_mul_toNat]
    exact ⟨t, ht, hexact, hexact ▸ hi_eq_zero_iff t.hi t.lo⟩
  case multComm => simp only [exec, execMult, Int.mul_comm]
  case multuComm => simp only [exec, execMultu, Nat.mul_comm]

/-- Settles O6: outside the overflow pair the quotient fits in LO, so that the integers' division with remainder is read
back. -/
theorem divideLaws : Obligations.DivideLaws := by
  intro s rs rt vs vt
  refine ⟨fun hb ho => ?signed, fun hb => ?unsigned⟩
  case signed =>
    obtain ⟨t, ht, hhi, hlo, -⟩ := setsHiLo_of_next (exec_div_ordinary hb ho)
    have hq : t.lo.toInt = vs.toInt.tdiv vt.toInt := by
      rw [hlo, ofInt_signedQuotient, BitVec.toInt_sdiv_of_ne_or_ne _ _ (not_and_or.1 ho)]
    have hr : t.hi.toInt = vs.toInt.tmod vt.toInt := by rw [hhi, ofInt_signedRemainder, BitVec.toInt_srem]
    refine ⟨t, ht, ?_, ?_, ?_⟩
    · rw [hq, hr, Int.tdiv_mul_add_tmod]
    · rw [hr, Int.natAbs_tmod]
      exact Nat.mod_lt _ (Int.natAbs_pos.2 fun h => hb (BitVec.eq_of_toInt_eq h))
    · rw [hr]
      exact tmod_eq_zero_or_neg_iff _ _
  case unsigned =>
    obtain ⟨t, ht, hhi, hlo, -⟩ := setsHiLo_of_next (exec_divu_nonzero (rs := rs) hb)
    have hq : t.lo.toNat = vs.toNat / vt.toNat := by
      rw [hlo]
      exact Nat.mod_eq_of_lt ((Nat.div_le_self _ _).trans_lt vs.isLt)
    have hr : t.hi.toNat = vs.toNat % vt.toNat := by
      rw [hhi]
      exact Nat.mod_eq_of_lt ((Nat.mod_le _ _).trans_lt vs.isLt)
    refine ⟨t, ht, ?_, ?_⟩
    · rw [hq, hr, Nat.div_add_mod']
    · rw [hr]
      exact Nat.mod_lt _ (Nat.pos_of_ne_zero fun h => hb (BitVec.eq_of_toNat_eq h))

/-- Settles O7: a move to HI keeps LO by writing it back as it was, and the other way round. -/
theorem hiLoMovesCopyAndComplete : Obligations.HiLoMovesCopyAndComplete := by
  refine ⟨⟨?mfhi, ?mthi, ?mflo, ?mtlo⟩, fun s r => ⟨setsRegister_of_writeResult rfl,
    setsRegister_of_writeResult rfl, setsHiLo_of_next rfl, setsHiLo_of_next rfl⟩⟩
  case mfhi | mthi | mflo | mtlo => exact decodesTo_of_functMask rfl fun w hw => by rw [decodeRegister, hw]; rfl

end Sys2Proof.Machine
end

section
/-! SUPPORT. The shifts of 43_shift.md: the three shifts as a product and as quotients by a power of two, the amount in a
register; and from these the statement. -/

namespace Sys2Proof.Machine

/-! ## Shifts by powers of two (R170 to R175) -/

theorem shiftLeft_eq_ofNat_mul (v : Word) (n : BitVec 5) :
    shiftLeft v n = BitVec.ofNat 32 (v.toNat * 2 ^ n.toNat) :=
  congrArg (BitVec.ofNat 32) (Nat.shiftLeft_eq v.toNat n.toNat)

/-- The floor of the unsigned quotient is at most `v` and so needs no reduction modulo 2^32. -/
theorem shiftRightLogical_eq_ofNat_div (v : Word) (n : BitVec 5) :
    shiftRightLogical v n = BitVec.ofNat 32 (v.toNat / 2 ^ n.toNat) := by
  rw [← Nat.shiftRight_eq_div_pow, ← BitVec.toNat_ushiftRight, BitVec.ofNat_toNat, BitVec.setWidth_eq]
  rfl

/-- The integers' division by a positive number is the floor of the quotient. -/
theorem shiftRightArith_eq_ofInt_div (v : Word) (n : BitVec 5) :
    shiftRightArith v n = BitVec.ofInt 32 (v.toInt / 2 ^ n.toNat) :=
  congrArg (BitVec.ofInt 32) (Int.shiftRight_eq_div_pow v.toInt n.toNat)

/-- Bits 31:5 of the register are ignored (R173 to R175). -/
theorem toNat_shiftAmount (v : Word) : (shiftAmount v).toNat = v.toNat % 32 :=
  BitVec.extractLsb'_toNat 0 5 v

/-! ## The statement of 43_shift.md -/

/-- Settles O8: each of the six ends in `writeResult` of its shift, which is the product or quotient by 2^n for every
5-bit amount, and the amount in a register is the register modulo 32. -/
theorem shiftsScaleByPowersOfTwo : Obligations.ShiftsScaleByPowersOfTwo := by
  refine ⟨⟨?sll, ?srl, ?sra, ?sllv, ?srlv, ?srav⟩, fun s rd rt rs shamt => ?effects⟩
  case sll | srl | sra | sllv | srlv | srav =>
    exact decodesTo_of_functMask rfl fun w hw => by rw [decodeRegister, hw]; rfl
  case effects =>
    simp only [← toNat_shiftAmount, ← shiftLeft_eq_ofNat_mul, ← shiftRightLogical_eq_ofNat_div,
      ← shiftRightArith_eq_ofInt_div]
    and_intros
    all_goals exact setsRegister_of_writeResult rfl

end Sys2Proof.Machine
end

section
/-! SUPPORT. The `lui` and the comparisons of 44_lui_compare.md: the upper immediate as a product, the sign-extended
immediate read as signed and as unsigned, the result of a comparison; and from these the statement. -/

namespace Sys2Proof.Machine

/-! ## The immediates (R180, R183, R184) -/

theorem upperImm_eq_ofNat_mul (imm : BitVec 16) : upperImm imm = BitVec.ofNat 32 (imm.toNat * 2 ^ 16) := by
  have h : (upperImm imm).toNat = imm.toNat <<< 16 ||| 0 := BitVec.toNat_append imm 0x0000#16
  rw [Nat.or_zero, Nat.shiftLeft_eq] at h
  rw [← h, BitVec.ofNat_toNat, BitVec.setWidth_eq]

/-- Read as signed, the sign-extended immediate ranges over -32768 .. 32767 (R183). -/
theorem toInt_signImm (imm : BitVec 16) : (signImm imm).toInt = imm.toInt :=
  BitVec.toInt_signExtend_of_le (by decide)

/-- Read as unsigned, it ranges over 0 .. 0x7FFF and 0xFFFF8000 .. 0xFFFFFFFF (R184). -/
theorem toNat_signImm (imm : BitVec 16) :
    ((signImm imm).toNat : Int) = if imm.toInt < 0 then imm.toInt + 2 ^ 32 else imm.toInt := by
  have h := toInt_signImm imm
  rw [BitVec.toInt_eq_toNat_cond] at h
  split at h <;> split <;> omega

/-! ## The result of a comparison (R181 to R184) -/

theorem truthWord_lessSigned (a b : Word) :
    truthWord (lessSigned a b) = if a.toInt < b.toInt then 0x00000001#32 else 0x00000000#32 := by
  simp [truthWord, lessSigned]

theorem truthWord_lessUnsigned (a b : Word) :
    truthWord (lessUnsigned a b) = if a.toNat < b.toNat then 0x00000001#32 else 0x00000000#32 := by
  simp [truthWord, lessUnsigned]

/-! ## The statement of 44_lui_compare.md -/

/-- Settles O9: each of the five ends in `writeResult`; the comparison of the two integers a statement names is that of
the two words the model compares. -/
theorem luiAndComparesWriteTheirResult : Obligations.LuiAndComparesWriteTheirResult := by
  refine ⟨⟨?lui, ?slt, ?sltu, ?slti, ?sltiu⟩, fun s rd rs rt imm => ?effects⟩
  case slt | sltu => exact decodesTo_of_functMask rfl fun w hw => by rw [decodeRegister, hw]; rfl
  case lui | slti | sltiu => exact decodesTo_of_opcodeMask fun c w hw => by rw [decodeWord, hw]; rfl
  case effects =>
    -- First the immediate of `sltiu`: the rewriting by `toInt_signImm` would reach into the cases on its sign.
    simp only [← toNat_signImm, Nat.cast_lt]
    simp only [← upperImm_eq_ofNat_mul, ← toInt_signImm, ← truthWord_lessSigned, ← truthWord_lessUnsigned]
    and_intros
    all_goals exact setsRegister_of_writeResult rfl

end Sys2Proof.Machine
end

section
/-! SUPPORT. The bitwise logic of 45_bitwise.md: the bits of a zero-extended immediate and of a nor of words; and from
these the statement. -/

namespace Sys2Proof.Machine

/-! ## Bits of the operands and results (R193 to R196) -/

/-- Bits 31:16 of a logical immediate are zero (R194 to R196). -/
theorem getLsbD_zeroImm (imm : BitVec 16) (k : Nat) :
    (zeroImm imm).getLsbD k = (decide (k < 16) && imm.getLsbD k) := by
  have hlow : imm.getLsbD k = true → k < 16 := BitVec.lt_of_getLsbD
  rw [zeroImm, BitVec.zeroExtend, BitVec.getLsbD_setWidth]
  by_cases hk : k < 16
  · simp [hk, show k < 32 by omega]
  · simp [hk, mt hlow hk]

/-- The complement reaches the 32 bits of a word and none above them. -/
theorem getLsbD_nor (a b : Word) {k : Nat} (hk : k < 32) :
    (~~~(a ||| b)).getLsbD k = !(a.getLsbD k || b.getLsbD k) := by
  rw [BitVec.getLsbD_not, BitVec.getLsbD_or, decide_eq_true hk, Bool.true_and]

/-! ## The statement of 45_bitwise.md -/

/-- Settles O10: each of the seven ends in `writeResult`, whose value is read bit by bit. -/
theorem bitwiseLogicActsBitByBit : Obligations.BitwiseLogicActsBitByBit := by
  refine ⟨⟨?and, ?or, ?xor, ?nor, ?andi, ?ori, ?xori⟩, fun s rd rs rt imm => ?effects⟩
  case and | or | xor | nor => exact decodesTo_of_functMask rfl fun w hw => by rw [decodeRegister, hw]; rfl
  case andi | ori | xori => exact decodesTo_of_opcodeMask fun c w hw => by rw [decodeWord, hw]; rfl
  case effects =>
    simp only [← getLsbD_zeroImm]
    exact ⟨⟨_, setsRegister_of_writeResult rfl, fun _ _ => BitVec.getLsbD_and⟩,
      ⟨_, setsRegister_of_writeResult rfl, fun _ _ => BitVec.getLsbD_or⟩,
      ⟨_, setsRegister_of_writeResult rfl, fun _ _ => BitVec.getLsbD_xor⟩,
      ⟨_, setsRegister_of_writeResult rfl, fun _ hk => getLsbD_nor _ _ hk⟩,
      ⟨_, setsRegister_of_writeResult rfl, fun _ _ => BitVec.getLsbD_and⟩,
      ⟨_, setsRegister_of_writeResult rfl, fun _ _ => BitVec.getLsbD_or⟩,
      ⟨_, setsRegister_of_writeResult rfl, fun _ _ => BitVec.getLsbD_xor⟩⟩

end Sys2Proof.Machine
end

section
/-! SUPPORT. The branches and jumps of 46_branch_jump.md: the two computed targets in the words of the rules; where a
branch goes; what `jalr` answers under each instance of JALR_RD; and from these the statements. -/

namespace Sys2Proof.Machine

variable {i : Instr} {s : State}

/-! ## The computed targets (R200, R204) -/

/-- The target of a taken branch as the integer sum modulo 2^32. -/
theorem branchTarget_eq_ofInt (pc : Word) (imm : BitVec 16) :
    branchTarget pc imm = BitVec.ofInt 32 (pc.toNat + 4 + 4 * imm.toInt) := by
  have hshift : signImm imm <<< 2 = 4#32 * signImm imm := by
    rw [BitVec.shiftLeft_eq_mul_twoPow, mul_comm]
    rfl
  rw [branchTarget, hshift]
  simp [signImm_eq_ofInt, BitVec.ofInt_add, BitVec.ofInt_mul]

/-- The target of `j` and `jal` bit by bit: zeros in bits 1:0, the offset in bits 27:2, and the region of pc + 4, which
the mask keeps, in bits 31:28. -/
theorem jumpTarget_eq_mask_or (pc : Word) (offset : BitVec 26) :
    jumpTarget pc offset = ((pc + 4#32) &&& 0xF0000000#32) ||| (offset.zeroExtend 32 <<< 2) := by
  refine BitVec.eq_of_getLsbD_eq fun k hk => ?_
  have hmask : (0xF0000000#32).getLsbD k = decide (28 ≤ k) := by
    revert k
    decide
  simp only [jumpTarget, BitVec.getLsbD_append, BitVec.getLsbD_extractLsb', BitVec.getLsbD_or, BitVec.getLsbD_and,
    BitVec.getLsbD_shiftLeft, BitVec.zeroExtend, BitVec.getLsbD_setWidth, hmask]
  obtain hzero | hoffset | hregion : k < 2 ∨ (2 ≤ k ∧ k < 28) ∨ 28 ≤ k := by omega
  · simp [hzero, show ¬28 ≤ k by omega]
  · simp [hk, show ¬k ≤ 1 by omega, show ¬28 ≤ k by omega, show k - 2 < 26 by omega, show k - 2 < 32 by omega]
  · have hnone : offset.getLsbD (k - 2) = false := BitVec.getLsbD_of_ge offset _ (by omega)
    have hbit : 28 + (k - 2 - 26) = k := by omega
    simp [hregion, hnone, hbit, hk, show ¬k ≤ 1 by omega, show ¬k - 2 < 26 by omega, show k - 2 - 26 < 4 by omega]

/-! ## Where a branch goes (R200 to R203) -/

theorem goesTo_of_branchIf {taken : Bool} {imm : BitVec 16} {P : Prop} [Decidable P] (hP : taken = true ↔ P)
    (h : exec i s = branchIf taken imm s) :
    GoesTo i s (if P then branchTarget s.pc imm else s.pc + 4#32) := by
  rw [← if_congr hP rfl rfl]
  exact goesTo_of_jumpTo h

/-! ## What `jalr` answers (R207, D6) -/

section
variable {rd rs : RegIdx}

theorem exec_jalr_link31 (hc : s.config.jalrRd = .link31) :
    exec (.jalr rd rs) s = linkAndJump (s.readReg rs) s := by
  simp only [exec, execJalr, hc]

theorem exec_jalr_refuse_linkReg (hc : s.config.jalrRd = .refuse) (hrd : rd = linkReg) :
    exec (.jalr rd rs) s = linkAndJump (s.readReg rs) s := by
  simp only [exec, execJalr, hc, if_pos hrd]

theorem exec_jalr_refuse_other (hc : s.config.jalrRd = .refuse) (hrd : rd ≠ linkReg) :
    exec (.jalr rd rs) s = .refused (.jalrLinkNot31 rd) := by
  simp only [exec, execJalr, hc, if_neg hrd]

end

/-! ## The statements of 46_branch_jump.md -/

/-- Settles O11: each of the four ends in `branchIf` under its condition, and the target is the integer sum. -/
theorem branchesGoToTargetOrFallThrough : Obligations.BranchesGoToTargetOrFallThrough := by
  refine ⟨⟨?beq, ?bne, ?blez, ?bgtz⟩, fun s rs rt imm => ?effects⟩
  case beq | bne | blez | bgtz => exact decodesTo_of_opcodeMask fun c w hw => by rw [decodeWord, hw]; rfl
  case effects =>
    simp only [← branchTarget_eq_ofInt]
    exact ⟨goesTo_of_branchIf (by simp [equalCond]) rfl, goesTo_of_branchIf (by simp [equalCond]) rfl,
      goesTo_of_branchIf (by simp [nonPositiveCond]) rfl, goesTo_of_branchIf (by simp [nonPositiveCond]) rfl,
      fun ha => branchTarget_aligned ha imm⟩

/-- Settles O12: the target the statement spells out by a mask is the model's, and its low two bits are zero. -/
theorem jumpsGoToTheirTargetAndLink : Obligations.JumpsGoToTheirTargetAndLink := by
  refine ⟨⟨?j, ?jal⟩, fun s offset => ?effects⟩
  case j | jal => exact decodesTo_of_opcodeMask fun c w hw => by rw [decodeWord, hw]; rfl
  case effects =>
    simp only [← jumpTarget_eq_mask_or]
    exact ⟨goesTo_of_jumpTo rfl, linksAndGoesTo_of_linkAndJump rfl, jumpTarget_aligned s.pc offset⟩

/-- Settles O13: `jr` leaves the state running at x[rs], where Fetch halts on a misaligned pc. -/
theorem jumpRegisterGoesToTheSourceValue : Obligations.JumpRegisterGoesToTheSourceValue := by
  refine ⟨?encoding, fun s rs => ⟨goesTo_of_jumpTo rfl, fun hr ha => ?misaligned⟩⟩
  case encoding => exact decodesTo_of_functMask rfl fun w hw => by rw [decodeRegister, hw]; rfl
  case misaligned => exact ⟨s.setPc (s.readReg rs), rfl, misalignedFetchIsFatal _ hr ha⟩

/-- Settles O14: the three cases are the model's own, and the target is read before the link is written. -/
theorem jalrLinksInRegister31 : Obligations.JalrLinksInRegister31 := by
  refine ⟨?encoding, fun s rd rs => ⟨fun hc => ?link31, fun hc hrd => ?refuseLink, exec_jalr_refuse_other⟩⟩
  case encoding => exact decodesTo_of_functMask rfl fun w hw => by rw [decodeRegister, hw]; rfl
  case link31 => exact linksAndGoesTo_of_linkAndJump (exec_jalr_link31 hc)
  case refuseLink => exact linksAndGoesTo_of_linkAndJump (exec_jalr_refuse_linkReg hc hrd)

/-- Settles O34: what is no transfer goes on at pc + 4, and every transfer but the two to a register goes to an aligned
target. -/
theorem onlyRegisterJumpsMisalignPc : Obligations.OnlyRegisterJumpsMisalignPc := by
  intro i s t h ha hmis
  obtain ⟨r, v, -, hseq, -⟩ | ⟨hi, lo, -, hseq, -⟩ | ⟨target, -, -, -, rfl, htarget⟩ |
    ⟨target, -, -, -, rfl, htarget⟩ | ⟨rs, imm, n, -, hseq, -⟩ := exec_next_cases h
  case inr.inr.inl | inr.inr.inr.inl => exact htarget.resolve_right fun hto => hmis (hto ha)
  all_goals
    rw [exec_next_pc h hseq] at hmis
    exact absurd (nextPc_aligned ha) hmis

end Sys2Proof.Machine
end

section
/-! SUPPORT. The loads and stores of 47_load_store.md: the values they move, in the integers the statements name; what
each load and store does by the outcome of its check; what a load finds of a stored word; and from these the
statements. -/

namespace Sys2Proof.Machine

variable {s t u : State} {rt rs : RegIdx} {imm : BitVec 16}

/-! ## Loaded and stored values (R221 to R228) -/

theorem signByte_eq_ofInt (b : Byte) : signByte b = BitVec.ofInt 32 b.toInt := rfl

theorem zeroByte_eq_ofNat (b : Byte) : zeroByte b = BitVec.ofNat 32 b.toNat := (BitVec.ofNat_toNat 32 b).symm

theorem signHalf_eq_ofInt (h : Half) : signHalf h = BitVec.ofInt 32 h.toInt := rfl

theorem zeroHalf_eq_ofNat (h : Half) : zeroHalf h = BitVec.ofNat 32 h.toNat := (BitVec.ofNat_toNat 32 h).symm

theorem toNat_append_eq_add {m n : Nat} (x : BitVec m) (y : BitVec n) :
    (x ++ y).toNat = x.toNat * 2 ^ n + y.toNat := by
  rw [BitVec.toNat_append, ← Nat.shiftLeft_add_eq_or_of_lt y.isLt, Nat.shiftLeft_eq]

theorem toNat_joinHalf (o : ByteOrder) (b0 b1 : Byte) : (joinHalf o b0 b1).toNat = bytesValue o [b0, b1] := by
  cases o <;> simp only [joinHalf, bytesValue, toNat_append_eq_add, List.foldr, List.foldl] <;> omega

theorem toNat_joinWord (o : ByteOrder) (b0 b1 b2 b3 : Byte) :
    (joinWord o b0 b1 b2 b3).toNat = bytesValue o [b0, b1, b2, b3] := by
  cases o <;> simp only [joinWord, bytesValue, toNat_append_eq_add, List.foldr, List.foldl] <;> omega

/-- A field is the quotient by the power of two below it, cut to the field's width. -/
theorem extractLsb'_eq_ofNat_div {w : Nat} (x : BitVec w) (lo len : Nat) :
    x.extractLsb' lo len = BitVec.ofNat len (x.toNat / 2 ^ lo) :=
  congrArg (BitVec.ofNat len) (Nat.shiftRight_eq_div_pow x.toNat lo)

theorem extractLsb'_lowHalf (v : Word) {k : Nat} (hk : k ≤ 8) : (lowHalf v).extractLsb' k 8 = v.extractLsb' k 8 := by
  ext j hj
  simp [lowHalf, show k + j < 16 by omega]

theorem lowByte_eq_ofNat (v : Word) : lowByte v = BitVec.ofNat 8 v.toNat := by
  simp [lowByte, extractLsb'_eq_ofNat_div]

theorem lowHalf_eq_ofNat (v : Word) : lowHalf v = BitVec.ofNat 16 v.toNat := by
  simp [lowHalf, extractLsb'_eq_ofNat_div]

theorem halfByte_lowHalf_little (v : Word) {i : Nat} (hi : i < 2) :
    halfByte .little (lowHalf v) i = BitVec.ofNat 8 (v.toNat / 2 ^ (8 * i)) := by
  rw [halfByte, extractLsb'_lowHalf v (by omega), extractLsb'_eq_ofNat_div]

theorem halfByte_lowHalf_big (v : Word) (i : Nat) :
    halfByte .big (lowHalf v) i = BitVec.ofNat 8 (v.toNat / 2 ^ (8 * (1 - i))) := by
  rw [halfByte, extractLsb'_lowHalf v (by omega), extractLsb'_eq_ofNat_div]

theorem wordByte_little (v : Word) (i : Nat) : wordByte .little v i = BitVec.ofNat 8 (v.toNat / 2 ^ (8 * i)) :=
  extractLsb'_eq_ofNat_div v _ 8

theorem wordByte_big (v : Word) (i : Nat) : wordByte .big v i = BitVec.ofNat 8 (v.toNat / 2 ^ (8 * (3 - i))) :=
  extractLsb'_eq_ofNat_div v _ 8

/-! ## The halfword check (20_memory.md R59, D3) -/

theorem accessCheck_half_legal {c : Config} {a : Word}
    (h : a.toNat % 2 = 0 ∨ c.halfAlign = .permit ∧ a ≠ 0xFFFFFFFF#32) : accessCheck c .half a = .legal := by
  obtain he | ho := Nat.mod_two_eq_zero_or_one a.toNat
  · exact accessCheck_half_even c he
  · obtain ⟨hc, htop⟩ := h.resolve_left (by omega)
    simp [accessCheck_half_odd c ho, hc, htop]

theorem accessCheck_half_misaligned {c : Config} {a : Word} (ho : a.toNat % 2 = 1) (hc : c.halfAlign = .fatal) :
    accessCheck c .half a = .misaligned := by
  simp [accessCheck_half_odd c ho, hc]

theorem accessCheck_half_pastTop {c : Config} {a : Word} (ha : a = 0xFFFFFFFF#32) (hc : c.halfAlign = .permit) :
    accessCheck c .half a = .pastTop := by
  subst ha
  simp [accessCheck_half_odd c, hc]

theorem accessCheck_word_legal_iff {c : Config} {a : Word} : accessCheck c .word a = .legal ↔ a.toNat % 4 = 0 := by
  rw [accessCheck_word]
  split <;> simp_all

theorem accessCheck_word_misaligned {c : Config} {a : Word} (ha : a.toNat % 4 ≠ 0) :
    accessCheck c .word a = .misaligned := by
  rw [accessCheck_word, if_neg ha]

/-! ## Accesses that complete -/

section
variable {a : Word} (ha : effectiveAddress (s.readReg rs) imm = a)
include ha

/-- What the byte at the address is, both byte loads write it, extended. -/
theorem byteLoads_setRegister {b : Byte} (hb : s.readByte a = b) :
    SetsRegister (.lbu rt imm rs) s rt (BitVec.ofNat 32 b.toNat) ∧
      SetsRegister (.lb rt imm rs) s rt (BitVec.ofInt 32 b.toInt) := by
  subst ha hb
  rw [← zeroByte_eq_ofNat, ← signByte_eq_ofInt]
  exact ⟨setsRegister_of_writeResult rfl, setsRegister_of_writeResult rfl⟩

/-- What the halfword at the address is, both halfword loads write it, extended. -/
theorem halfLoads_setRegister {h : Half} (hc : accessCheck s.config .half a = .legal) (hh : s.readHalf a = h) :
    SetsRegister (.lhu rt imm rs) s rt (BitVec.ofNat 32 h.toNat) ∧
      SetsRegister (.lh rt imm rs) s rt (BitVec.ofInt 32 h.toInt) := by
  subst ha hh
  rw [← zeroHalf_eq_ofNat, ← signHalf_eq_ofInt]
  exact ⟨setsRegister_of_writeResult (loadResult_legal hc _ _), setsRegister_of_writeResult (loadResult_legal hc _ _)⟩

theorem setsRegister_lw {v : Word} (hc : accessCheck s.config .word a = .legal) (hv : s.readWord a = v) :
    SetsRegister (.lw rt imm rs) s rt v := by
  subst ha hv
  exact setsRegister_of_writeResult (loadResult_legal hc _ _)

end

/-- A store that completes passed its check. -/
theorem storeResult_next_legal {op : Instr} {w : Width} {a : Word} (h : storeResult op w a u s = .next t) :
    accessCheck s.config w a = .legal := by
  cases hc : accessCheck s.config w a with
  | legal => rfl
  | misaligned => simp [storeResult_misaligned hc] at h
  | pastTop => simp [storeResult_pastTop hc] at h

theorem execSh_next (h : execSh rt imm rs s = .next t) :
    t = (s.writeHalf (effectiveAddress (s.readReg rs) imm) (lowHalf (s.readReg rt))).advance :=
  storeResult_next h

/-- A byte store completes at every address. -/
theorem execSb_next (h : execSb rt imm rs s = .next t) :
    t = (s.writeByte (effectiveAddress (s.readReg rs) imm) (lowByte (s.readReg rt))).advance :=
  (Host.Outcome.next.inj h).symm

/-! ## Reading a stored word by its parts (R229) -/

theorem SameMemory.readHalf (h : SameMemory t u) (hc : u.config = t.config) (a : Word) :
    u.readHalf a = t.readHalf a := by
  simp only [State.readHalf, h _, hc]

theorem SameMemory.readWord (h : SameMemory t u) (hc : u.config = t.config) (a : Word) :
    u.readWord a = t.readWord a := by
  simp only [State.readWord, h _, hc]

theorem State.readByte_writeWord_add (s : State) (a w : Word) {k : Nat} (hk : k < 4) :
    (s.writeWord a w).readByte (a + BitVec.ofNat 32 k) = wordByte s.config.byteOrder w k := by
  rw [State.readByte_writeWord]
  interval_cases k <;> simp

theorem State.readHalf_writeWord_add (s : State) (a w : Word) {j : Nat} (hj : j < 2) :
    (s.writeWord a w).readHalf (a + BitVec.ofNat 32 (2 * j)) =
      joinHalf s.config.byteOrder (wordByte s.config.byteOrder w (2 * j)) (wordByte s.config.byteOrder w (2 * j + 1)) := by
  have hnext : a + BitVec.ofNat 32 (2 * j) + 1#32 = a + BitVec.ofNat 32 (2 * j + 1) := by
    rw [BitVec.ofNat_add, BitVec.add_assoc]
  rw [State.readHalf, hnext, s.readByte_writeWord_add a w (by omega), s.readByte_writeWord_add a w (by omega),
    State.writeWord_config]

theorem joinHalf_wordByte_little (v : Word) (k : Nat) :
    joinHalf .little (wordByte .little v k) (wordByte .little v (k + 1)) = v.extractLsb' (8 * k) 16 :=
  BitVec.extractLsb'_append_extractLsb'_eq_extractLsb' rfl

theorem joinHalf_wordByte_big (v : Word) {k : Nat} (hk : k < 3) :
    joinHalf .big (wordByte .big v k) (wordByte .big v (k + 1)) = v.extractLsb' (8 * (2 - k)) 16 := by
  rw [show 8 * (2 - k) = 8 * (3 - (k + 1)) by omega]
  exact BitVec.extractLsb'_append_extractLsb'_eq_extractLsb' (by omega)

/-! ## The statements of 47_load_store.md -/

/-- Settles O15: a byte access passes its check at every address. -/
theorem byteAccessesCompleteEverywhere : Obligations.ByteAccessesCompleteEverywhere := by
  refine ⟨⟨?lb, ?lbu, ?sb⟩, fun s rt rs imm => ?effects⟩
  case lb | lbu | sb => exact decodesTo_of_opcodeMask fun c w hw => by rw [decodeWord, hw]; rfl
  case effects =>
    simp only [← add_signImm_eq_ofInt, ← lowByte_eq_ofNat]
    obtain ⟨hlbu, hlb⟩ := byteLoads_setRegister (s := s) (rs := rs) (rt := rt) (imm := imm) rfl rfl
    exact ⟨hlb, hlbu, storesBytes_of_writeByte rfl⟩

/-- Settles O16: the three outcomes are those of the halfword check, and the two bytes are the halfword's in the
configuration's order. -/
theorem halfwordAccessesCompleteOrHalt : Obligations.HalfwordAccessesCompleteOrHalt := by
  refine ⟨⟨?lh, ?lhu, ?sh⟩, fun s rt rs imm => ?effects⟩
  case lh | lhu | sh => exact decodesTo_of_opcodeMask fun c w hw => by rw [decodeWord, hw]; rfl
  case effects =>
    intro a h v stored
    have ha : effectiveAddress (s.readReg rs) imm = a := add_signImm_eq_ofInt _ _
    have hh : (s.readHalf a).toNat = h := toNat_joinHalf _ _ _
    have hstored : [halfByte s.config.byteOrder (lowHalf (s.readReg rt)) 0,
        halfByte s.config.byteOrder (lowHalf (s.readReg rt)) 1] = stored := by
      dsimp only [stored]
      cases s.config.byteOrder
      · simp [halfByte_lowHalf_little, v]
      · simp [halfByte_lowHalf_big, v]
    rw [← hstored, ← hh, BitVec.ofNat_toNat, BitVec.setWidth_eq, ← ha]
    refine ⟨fun hlegal => ?complete, fun ho hf => ?fatal, fun htop hp => ?refused⟩
    case complete =>
      have hc := accessCheck_half_legal hlegal
      obtain ⟨hlhu, hlh⟩ := halfLoads_setRegister (rt := rt) rfl hc rfl
      exact ⟨hlh, hlhu, storesBytes_of_writeHalf (storeResult_legal hc _)⟩
    case fatal =>
      have hc := accessCheck_half_misaligned ho hf
      exact ⟨loadResult_misaligned hc _ _, loadResult_misaligned hc _ _, storeResult_misaligned hc _⟩
    case refused =>
      have hc := accessCheck_half_pastTop htop hp
      exact ⟨loadResult_pastTop hc _ _, loadResult_pastTop hc _ _, storeResult_pastTop hc _⟩

/-- Settles O17: the two outcomes are those of the word check, and the four bytes are the word's in the configuration's
order. -/
theorem wordAccessesCompleteOrHalt : Obligations.WordAccessesCompleteOrHalt := by
  refine ⟨⟨?lw, ?sw⟩, fun s rt rs imm => ?effects⟩
  case lw | sw => exact decodesTo_of_opcodeMask fun c w hw => by rw [decodeWord, hw]; rfl
  case effects =>
    intro a w v stored
    have ha : effectiveAddress (s.readReg rs) imm = a := add_signImm_eq_ofInt _ _
    have hw : (s.readWord a).toNat = w := toNat_joinWord _ _ _ _ _
    have hstored : wordBytes s.config.byteOrder (s.readReg rt) = stored := by
      dsimp only [stored]
      cases s.config.byteOrder
      · simp [wordBytes, wordByte_little, v]
      · simp [wordBytes, wordByte_big, v]
    rw [← hstored, ← hw, BitVec.ofNat_toNat, BitVec.setWidth_eq, ← ha]
    refine ⟨fun hal => ?complete, fun hmis => ?fatal⟩
    case complete =>
      have hc := (accessCheck_word_legal_iff (c := s.config)).2 hal
      exact ⟨setsRegister_lw rfl hc rfl, storesBytes_of_writeWord (storeResult_legal hc _)⟩
    case fatal =>
      have hc := accessCheck_word_misaligned (c := s.config) hmis
      exact ⟨loadResult_misaligned hc _ _, storeResult_misaligned hc _⟩

/-- Settles O41: the store passed its check, so a load there passes it too; and what it finds is the stored value, or
the part of the stored word that the byte order lays at its address. -/
theorem storedValuesAreLoadedBack : Obligations.StoredValuesAreLoadedBack := by
  intro s t u rt rs imm hmem hconfig v a rd base disp b
  refine ⟨fun h => ?sw, fun h hb => ?sh, fun h hb => ?sb⟩
  case sw =>
    have hc : accessCheck u.config .word a = .legal := hconfig ▸ storeResult_next_legal h
    have hal : a.toNat % 4 = 0 := accessCheck_word_legal_iff.1 hc
    obtain rfl := execSw_next h
    have hstored : SameMemory (s.writeWord a v) u := hmem
    refine ⟨fun hb => ?word, fun k hk hb => byteLoads_setRegister hb ?byte,
      fun j hj hb => halfLoads_setRegister hb (accessCheck_half_even _ ?even) ?half⟩
    case word => exact setsRegister_lw hb hc ((hstored.readWord hconfig a).trans (s.readWord_writeWord_same a v))
    case byte =>
      rw [hstored, s.readByte_writeWord_add a v hk, ← hconfig]
      cases u.config.byteOrder
      · rfl
      · simp only [wordByte, Nat.mul_sub]
    case even =>
      rw [BitVec.toNat_add, BitVec.toNat_ofNat]
      omega
    case half =>
      rw [hstored.readHalf hconfig, s.readHalf_writeWord_add a v hj, ← hconfig]
      cases u.config.byteOrder
      · simp only [joinHalf_wordByte_little, ← Nat.mul_assoc]
      · rw [joinHalf_wordByte_big v (by omega)]
        simp only [Nat.mul_sub, ← Nat.mul_assoc]
  case sh =>
    have hc : accessCheck u.config .half a = .legal := hconfig ▸ storeResult_next_legal h
    obtain rfl := execSh_next h
    have hstored : SameMemory (s.writeHalf a (lowHalf v)) u := hmem
    rw [← BitVec.toNat_ofNat, ← lowHalf_eq_ofNat]
    exact halfLoads_setRegister hb hc ((hstored.readHalf hconfig a).trans (s.readHalf_writeHalf_same a _))
  case sb =>
    obtain rfl := execSb_next h
    have hstored : SameMemory (s.writeByte a (lowByte v)) u := hmem
    rw [← BitVec.toNat_ofNat, ← lowByte_eq_ofNat]
    exact byteLoads_setRegister hb ((hstored a).trans (s.readByte_writeByte_same a _))

end Sys2Proof.Machine
end

section
/-! SUPPORT. The no-operations of 48_special.md. -/

namespace Sys2Proof.Machine

/-- With the opcode of `trap` at 0x1A no other row of R91 has it. -/
theorem decodeWord_trap {c : Config} {w : Word} (hc : c.trapOpcode = 0x1A#6) (hw : opcodeOf w = 0x1A#6) :
    decodeWord c w = .ok .trap := by
  rw [decodeWord_of_not_primary (by rw [hw]; decide), hw, if_pos hc.symm]

/-- Settles O18: each of the three goes to pc + 4. -/
theorem specialInstructionsAreNoOperations : Obligations.SpecialInstructionsAreNoOperations := by
  refine ⟨⟨?syscall, ?brk, fun c w hc hw => decodeWord_trap hc (opcodeOf_of_opcodeMask hw)⟩, fun s => ?effects⟩
  case syscall | brk => exact decodesTo_of_functMask rfl fun w hw => by rw [decodeRegister, hw]; rfl
  case effects => exact ⟨goesTo_of_jumpTo rfl, goesTo_of_jumpTo rfl, goesTo_of_jumpTo rfl⟩

end Sys2Proof.Machine
end

section
/-! SUPPORT. The fatal halts of 60_exceptions.md: what each shared operation that can raise one finds when it does; the
end of a run; and from these the causes of a step's halt. -/

namespace Sys2Proof.Machine

variable {i : Instr} {s : State} {f : Fault} {rs rt : RegIdx} {imm : BitVec 16}

/-! ## The halts of a data access (20_memory.md R58, R59) -/

/-- A word access halts off the multiples of 4, a halfword one at an odd address under HALF_ALIGN = fatal. -/
theorem accessCheck_misaligned {c : Config} {w : Width} {a : Word} (h : accessCheck c w a = .misaligned) :
    (w = .word ∧ a.toNat % 4 ≠ 0) ∨ (w = .half ∧ a.toNat % 2 ≠ 0 ∧ c.halfAlign = .fatal) := by
  cases w with
  | byte => simp at h
  | word =>
    refine .inl ⟨rfl, fun ha => ?_⟩
    simp [accessCheck_word, ha] at h
  | half =>
    obtain he | ho := Nat.mod_two_eq_zero_or_one a.toNat
    · simp [accessCheck_half_even c he] at h
    · refine .inr ⟨rfl, by omega, ?_⟩
      cases hc : c.halfAlign with
      | fatal => rfl
      | permit =>
        rw [accessCheck_half_odd c ho, hc] at h
        dsimp only at h
        split at h <;> simp at h

theorem loadResult_fault {op : Instr} {w : Width} {a : Word} {v : Word} (h : loadResult op w a rt v s = .fault f) :
    accessCheck s.config w a = .misaligned ∧ f = .dataMisaligned a s.pc s.fetchWord op := by
  cases hc : accessCheck s.config w a with
  | legal => simp [loadResult_legal hc, writeResult] at h
  | misaligned => exact ⟨rfl, by simpa [loadResult_misaligned hc] using h.symm⟩
  | pastTop => simp [loadResult_pastTop hc] at h

theorem storeResult_fault {op : Instr} {w : Width} {a : Word} {u : State} (h : storeResult op w a u s = .fault f) :
    accessCheck s.config w a = .misaligned ∧ f = .dataMisaligned a s.pc s.fetchWord op := by
  cases hc : accessCheck s.config w a with
  | legal => simp [storeResult_legal hc] at h
  | misaligned => exact ⟨rfl, by simpa [storeResult_misaligned hc] using h.symm⟩
  | pastTop => simp [storeResult_pastTop hc] at h

/-! ## The halts of an instruction (R250) -/

/-- `div` or `divu` by zero (R252). -/
def HaltsAtZeroDivisor (i : Instr) (s : State) (f : Fault) : Prop :=
  ∃ rs rt, (i = .div rs rt ∨ i = .divu rs rt) ∧ s.readReg rt = 0x00000000#32 ∧ f = .divideByZero s.pc s.fetchWord i

/-- `div` of the overflow pair under DIV_OVERFLOW = fatal (42_muldiv_hilo.md R152, D12). -/
def HaltsAtOverflowPair (i : Instr) (s : State) (f : Fault) : Prop :=
  ∃ rs rt, i = .div rs rt ∧ s.readReg rs = 0x80000000#32 ∧ s.readReg rt = 0xFFFFFFFF#32 ∧
    s.config.divOverflow = .fatal ∧ f = .divideOverflow s.pc s.fetchWord i

/-- A word access at no multiple of 4 (20_memory.md R58). -/
def HaltsAtWordAddress (i : Instr) (s : State) (f : Fault) : Prop :=
  ∃ rt imm rs, (i = .lw rt imm rs ∨ i = .sw rt imm rs) ∧ (effectiveAddress (s.readReg rs) imm).toNat % 4 ≠ 0 ∧
    f = .dataMisaligned (effectiveAddress (s.readReg rs) imm) s.pc s.fetchWord i

/-- A halfword access at an odd address under HALF_ALIGN = fatal (20_memory.md R59, D3). -/
def HaltsAtHalfAddress (i : Instr) (s : State) (f : Fault) : Prop :=
  ∃ rt imm rs, (i = .lh rt imm rs ∨ i = .lhu rt imm rs ∨ i = .sh rt imm rs) ∧
    (effectiveAddress (s.readReg rs) imm).toNat % 2 ≠ 0 ∧ s.config.halfAlign = .fatal ∧
    f = .dataMisaligned (effectiveAddress (s.readReg rs) imm) s.pc s.fetchWord i

theorem exec_div_fault (h : exec (.div rs rt) s = .fault f) :
    HaltsAtZeroDivisor (.div rs rt) s f ∨ HaltsAtOverflowPair (.div rs rt) s f := by
  by_cases hb : s.readReg rt = 0x00000000#32
  · rw [exec_div_zero hb] at h
    exact .inl ⟨rs, rt, .inl rfl, hb, (Host.Outcome.fault.inj h).symm⟩
  by_cases ho : s.readReg rs = 0x80000000#32 ∧ s.readReg rt = 0xFFFFFFFF#32
  · obtain ⟨hvs, hvt⟩ := ho
    cases hc : s.config.divOverflow with
    | wrap => simp [exec_div_overflow_wrap hvs hvt hc, writeHiLo] at h
    | fatal =>
      rw [exec_div_overflow_fatal hvs hvt hc] at h
      exact .inr ⟨rs, rt, rfl, hvs, hvt, hc, (Host.Outcome.fault.inj h).symm⟩
  · simp [exec_div_ordinary hb ho, writeHiLo] at h

theorem exec_divu_fault (h : exec (.divu rs rt) s = .fault f) : HaltsAtZeroDivisor (.divu rs rt) s f := by
  by_cases hb : s.readReg rt = 0x00000000#32
  · rw [exec_divu_zero hb] at h
    exact ⟨rs, rt, .inr rfl, hb, (Host.Outcome.fault.inj h).symm⟩
  · simp [exec_divu_nonzero hb, writeHiLo] at h

theorem execJalr_ne_fault {rd : RegIdx} : execJalr rd rs s ≠ .fault f := by
  unfold execJalr
  split
  · simp [linkAndJump]
  · split <;> simp [linkAndJump]

/-- An access of `w` at the effective address that found `misaligned`, read as one of the two kinds of halt. -/
theorem halts_of_misaligned {w : Width}
    (hword : w = .word → i = .lw rt imm rs ∨ i = .sw rt imm rs)
    (hhalf : w = .half → i = .lh rt imm rs ∨ i = .lhu rt imm rs ∨ i = .sh rt imm rs)
    (h : accessCheck s.config w (effectiveAddress (s.readReg rs) imm) = .misaligned ∧
      f = .dataMisaligned (effectiveAddress (s.readReg rs) imm) s.pc s.fetchWord i) :
    HaltsAtWordAddress i s f ∨ HaltsAtHalfAddress i s f := by
  obtain ⟨hcheck, hf⟩ := h
  obtain ⟨hw, ha⟩ | ⟨hw, ha, hc⟩ := accessCheck_misaligned hcheck
  · exact .inl ⟨rt, imm, rs, hword hw, ha, hf⟩
  · exact .inr ⟨rt, imm, rs, hhalf hw, ha, hc, hf⟩

/-- Everything that can halt an instruction. -/
theorem exec_fault_cases (h : exec i s = .fault f) :
    HaltsAtZeroDivisor i s f ∨ HaltsAtOverflowPair i s f ∨ HaltsAtWordAddress i s f ∨ HaltsAtHalfAddress i s f := by
  cases i
  case div => exact (exec_div_fault h).imp_right .inl
  case divu => exact .inl (exec_divu_fault h)
  case lb rt imm rs | lh rt imm rs | lw rt imm rs | lbu rt imm rs | lhu rt imm rs =>
    simp only [exec, execLb, execLh, execLw, execLbu, execLhu] at h
    exact .inr (.inr (halts_of_misaligned (rt := rt) (by simp) (by simp) (loadResult_fault h)))
  case sb rt imm rs | sh rt imm rs | sw rt imm rs =>
    simp only [exec, execSb, execSh, execSw] at h
    exact .inr (.inr (halts_of_misaligned (rt := rt) (by simp) (by simp) (storeResult_fault h)))
  case jalr => exact absurd h execJalr_ne_fault
  -- Each of the others answers a next state outright.
  all_goals cases h

/-! ## The end of a run (R257, R259) -/

theorem step_of_ended (h : s.status ≠ .running) : step s = .refused .runEnded := by
  cases hs : s.status <;> simp_all [step]

theorem runnerStep_of_ended (budget : Nat) (h : s.status ≠ .running) : runnerStep budget s = .ok s := by
  cases hs : s.status <;> simp_all [runnerStep]

/-! ## The step -/

/-- Everything that can halt a step, in the order of R256: its fetch, its decoding, its instruction. -/
theorem step_fault_cases (h : step s = .fault f) :
    (s.pc.toNat % 4 ≠ 0 ∧ f = .fetchMisaligned s.pc) ∨
    (s.pc.toNat % 4 = 0 ∧ (∃ r, decodeWord s.config s.fetchWord = .error r) ∧ f = .decodeError s.pc s.fetchWord) ∨
    (s.pc.toNat % 4 = 0 ∧ ∃ i, decodeWord s.config s.fetchWord = .ok i ∧ exec i s = .fault f) := by
  have hr : s.status = .running := by
    by_contra hended
    simp [step_of_ended hended] at h
  by_cases ha : s.pc.toNat % 4 = 0
  case neg =>
    rw [misalignedFetchIsFatal s hr ha] at h
    exact .inl ⟨ha, (Host.Outcome.fault.inj h).symm⟩
  cases hd : decodeWord s.config s.fetchWord with
  | error r =>
    rw [step_decodeError hr ha hd] at h
    exact .inr (.inl ⟨ha, ⟨r, rfl⟩, (Host.Outcome.fault.inj h).symm⟩)
  | ok i =>
    rw [step_decoded hr ha hd] at h
    refine .inr (.inr ⟨ha, i, rfl, ?_⟩)
    cases he : exec i s with
    | next t => simp [he, countCompleted] at h
    | fault g => simpa [he, countCompleted] using h
    | refused q => simp [he, countCompleted] at h

/-! ## The statements of 60_exceptions.md -/

/-- Settles O28: a halt of Fetch, of Decode, or of the decoded instruction, which has four kinds. -/
theorem fatalHaltsHaveOnlyTheirListedCauses : Obligations.FatalHaltsHaveOnlyTheirListedCauses := by
  intro s f h
  obtain hfetch | hdecode | ⟨ha, i, hd, he⟩ := step_fault_cases h
  · exact .inl hfetch
  · exact .inr (.inl hdecode)
  · exact .inr (.inr ⟨ha, i, hd, exec_fault_cases he⟩)

/-- Settles O30: both look at the status first. -/
theorem endedRunsTakeNoStep : Obligations.EndedRunsTakeNoStep := fun _ budget h =>
  ⟨step_of_ended h, runnerStep_of_ended budget h⟩

end Sys2Proof.Machine
end

section
/-! SUPPORT. The launch and the run of 70_reset_and_hazards.md: what loading IMAGE changes; the runner as it follows the
steps of the core, and the lines it receives; how every run ends; and from these the statements. -/

namespace Sys2Proof.Machine

variable {s t : State} {trace : Tracing} {budget m n : Nat} {lines : List TraceLine}

/-! ## The loader (R280, R281) -/

/-- Loading writes memory and nothing else. -/
theorem loadImage_eq (s : State) (image : Image) : loadImage s image = { s with mem := (loadImage s image).mem } := by
  induction image generalizing s with
  | nil => rfl
  | cons segment image ih => exact ih (loadSegment s segment)

theorem loadImage_append_singleton (s : State) (image : Image) (segment : Word × List Byte) :
    loadImage s (image ++ [segment]) = loadSegment (loadImage s image) segment := by
  simp [loadImage]

theorem launch_eq_some_iff {c : Config} {image : Image} {entry : Word} :
    launch c image entry = some s ↔
      image.all segmentFits = true ∧ s = loadImage (State.resetWith c entry) image := by
  unfold launch
  split
  case isTrue h =>
    simp only [h, true_and, Option.some.injEq]
    exact eq_comm
  case isFalse h => simp [h]

theorem launch_isSome_iff {c : Config} {image : Image} {entry : Word} :
    (launch c image entry).isSome = true ↔ image.all segmentFits = true := by
  rw [Option.isSome_iff_exists]
  simp [launch_eq_some_iff]

theorem segmentFits_iff {start : Word} {bytes : List Byte} :
    segmentFits (start, bytes) = true ↔ start.toNat + bytes.length ≤ 2 ^ 32 := decide_eq_true_iff

section
variable {start : Word} {bytes : List Byte} (hfit : start.toNat + bytes.length ≤ 2 ^ 32)
include hfit

/-- In a segment that fits no address wraps. -/
theorem toNat_segment_address {k : Nat} (hk : k < bytes.length) :
    (start + BitVec.ofNat 32 k).toNat = start.toNat + k := by
  rw [BitVec.toNat_add, BitVec.toNat_ofNat]
  omega

theorem readByte_loadSegment_inside (s : State) {k : Nat} {b : Byte} (hb : bytes[k]? = some b) :
    (loadSegment s (start, bytes)).readByte (start + BitVec.ofNat 32 k) = b := by
  obtain ⟨hk, -⟩ := List.getElem?_eq_some_iff.1 hb
  simp [State.readByte, loadSegment, Memory.get_setBytes, toNat_segment_address hfit hk, hb]

theorem loadSegment_sameMemoryOutside (s : State) :
    SameMemoryOutside start bytes.length s (loadSegment s (start, bytes)) := by
  intro a ha
  simp only [State.readByte, loadSegment, Memory.get_setBytes]
  split
  case isFalse => rfl
  case isTrue hle =>
    have hbeyond : bytes.length ≤ a.toNat - start.toNat := by
      by_contra! hlt
      refine ha _ hlt (BitVec.eq_of_toNat_eq ?_)
      rw [toNat_segment_address hfit hlt]
      omega
    rw [List.getElem?_eq_none hbeyond]
    rfl

end

/-! ## Steps of the core -/

/-- What `n + 1` completed steps are made of. -/
theorem coreRun_succ_next (h : Sys2Proof.core.run (n + 1) s = .next t) :
    ∃ u, step s = .next u ∧ Sys2Proof.core.run n u = .next t := by
  cases hs : step s with
  | next u => exact ⟨u, rfl, (coreRun_succ n hs).symm.trans h⟩
  | fault f =>
    have hs' : Sys2Proof.core.step s = .fault f := hs
    simp [Host.Core.run, hs'] at h
  | refused q =>
    have hs' : Sys2Proof.core.step s = .refused q := hs
    simp [Host.Core.run, hs'] at h

/-- Completed steps leave the run going and are counted. -/
theorem coreRun_next_counts (hr : s.status = .running) (h : Sys2Proof.core.run m s = .next t) :
    t.status = .running ∧ t.stepsDone = s.stepsDone + m := by
  induction m generalizing s with
  | zero =>
    obtain rfl : s = t := Host.Outcome.next.inj h
    exact ⟨hr, rfl⟩
  | succ m ih =>
    obtain ⟨u, hu, hrest⟩ := coreRun_succ_next h
    obtain ⟨-, -, hru, hcount⟩ := stepKeepsConfigurationAndCounts s u hu
    obtain ⟨hrt, htotal⟩ := ih hru hrest
    exact ⟨hrt, by omega⟩

/-- Where no step is refused, the core completes `n` steps, or fewer and then halts. -/
theorem coreRun_completes_or_halts (n : Nat) (hc : NoRefusals s.config) (hr : s.status = .running) :
    (∃ t, Sys2Proof.core.run n s = .next t) ∨
      ∃ m t f, m < n ∧ Sys2Proof.core.run m s = .next t ∧ step t = .fault f := by
  induction n generalizing s with
  | zero => exact .inl ⟨s, rfl⟩
  | succ n ih =>
    cases hs : step s with
    | refused q => exact absurd hs (step_ne_refused hc hr)
    | fault f => exact .inr ⟨0, s, f, n.succ_pos, rfl, hs⟩
    | next u =>
      obtain ⟨hconfig, -, hru, -⟩ := stepKeepsConfigurationAndCounts s u hs
      obtain ⟨t, ht⟩ | ⟨m, t, f, hm, ht, hf⟩ := ih (hconfig.symm ▸ hc) hru
      · exact .inl ⟨t, (coreRun_succ n hs).trans ht⟩
      · exact .inr ⟨m + 1, t, f, Nat.succ_lt_succ hm, (coreRun_succ m hs).trans ht, hf⟩

/-! ## The lines of the core's steps (R282) -/

/-- The lines the runner receives for the first `m` completed steps from `s`. -/
def received (trace : Tracing) (budget : Nat) : Nat → State → List TraceLine
  | 0, _ => []
  | m + 1, s =>
    match step s with
    | .next t => emitted trace budget s ++ received trace budget m t
    | .fault _ => []
    | .refused _ => []

theorem received_succ (h : step s = .next t) :
    received trace budget (m + 1) s = emitted trace budget s ++ received trace budget m t := by
  simp only [received, h]

theorem received_off (h : Sys2Proof.core.run m s = .next t) : received .off budget m s = [] := by
  induction m generalizing s with
  | zero => rfl
  | succ m ih =>
    obtain ⟨u, hu, hrest⟩ := coreRun_succ_next h
    rw [received_succ hu, emitted_off, ih hrest, List.append_nil]

/-- A completed step within the budget emits its one line when TRACE is on. -/
theorem emitted_on_of_next (hb : s.stepsDone < budget) (h : step s = .next t) :
    ∃ line, traceLine s = some line ∧ emitted .on budget s = [line] := by
  obtain ⟨line, -, hline, -⟩ := (traceLineShowsValuesAsRead s).1 t h
  exact ⟨line, hline, by rw [emitted_on hb, hline, Option.toList_some]⟩

/-- With TRACE on the `k`-th of `m` lines is that of the step after `k` steps. -/
theorem received_on (hb : s.stepsDone + m ≤ budget) (h : Sys2Proof.core.run m s = .next t) :
    (received .on budget m s).length = m ∧
      ∀ k line, (received .on budget m s)[k]? = some line →
        ∃ u, Sys2Proof.core.run k s = .next u ∧ traceLine u = some line := by
  induction m generalizing s with
  | zero => exact ⟨rfl, fun k line hk => by simp [received] at hk⟩
  | succ m ih =>
    obtain ⟨u, hu, hrest⟩ := coreRun_succ_next h
    obtain ⟨-, -, -, hcount⟩ := stepKeepsConfigurationAndCounts s u hu
    obtain ⟨first, hfirst, hemitted⟩ := emitted_on_of_next (budget := budget) (by omega) hu
    obtain ⟨hlength, hlines⟩ := ih (by omega) hrest
    rw [received_succ hu, hemitted, List.singleton_append]
    refine ⟨by rw [List.length_cons, hlength], fun k line hk => ?_⟩
    cases k with
    | zero => exact ⟨s, rfl, hfirst.trans hk⟩
    | succ k =>
      obtain ⟨v, hv, hline⟩ := hlines k line hk
      exact ⟨v, (coreRun_succ k hu).trans hv, hline⟩

/-! ## The runner (R283) -/

/-- Within the budget the runner follows the core, and receives the lines of its steps. -/
theorem runFor_add (n : Nat) (lines : List TraceLine) (hr : s.status = .running) (hb : s.stepsDone + m ≤ budget)
    (h : Sys2Proof.core.run m s = .next t) :
    runFor trace budget (m + n) ⟨s, lines⟩ = runFor trace budget n ⟨t, lines ++ received trace budget m s⟩ := by
  induction m generalizing s lines with
  | zero =>
    obtain rfl : s = t := Host.Outcome.next.inj h
    rw [received, List.append_nil, Nat.zero_add]
  | succ m ih =>
    obtain ⟨u, hu, hrest⟩ := coreRun_succ_next h
    obtain ⟨-, -, hru, hcount⟩ := stepKeepsConfigurationAndCounts s u hu
    rw [Nat.succ_add, runFor_succ _ (runnerStep_of_next hr (by omega) hu), ih _ hru (by omega) hrest, received_succ hu,
      List.append_assoc]

/-- The runner's moves after the end of a run change nothing. -/
theorem runFor_of_ended (n : Nat) (h : s.status ≠ .running) :
    runFor trace budget n ⟨s, lines⟩ = .ok ⟨s, lines⟩ := by
  induction n with
  | zero => rfl
  | succ n ih =>
    rw [runFor_succ n (runnerStep_of_ended budget h), emitted_of_traceLine_none (traceLine_of_refused (step_of_ended h)),
      List.append_nil, ih]

theorem runFor_of_fault {f : Fault} (n : Nat) (hr : s.status = .running) (hb : s.stepsDone < budget)
    (h : step s = .fault f) :
    runFor trace budget (n + 1) ⟨s, lines⟩ = .ok ⟨{ s with status := .fatal f }, lines⟩ := by
  rw [runFor_succ n (runnerStep_of_fault hr hb h), emitted_of_traceLine_none (traceLine_of_fault h), List.append_nil,
    runFor_of_ended n (by simp)]

theorem emitted_of_budget (hb : budget ≤ s.stepsDone) : emitted trace budget s = [] := by
  cases trace with
  | off => rfl
  | on => exact if_neg (Nat.not_lt.2 hb)

theorem runFor_of_budget (n : Nat) (hr : s.status = .running) (hb : budget ≤ s.stepsDone) :
    runFor trace budget (n + 1) ⟨s, lines⟩ = .ok ⟨{ s with status := .budgetReached }, lines⟩ := by
  rw [runFor_succ n (runnerStep_of_budget hr hb), emitted_of_budget hb, List.append_nil, runFor_of_ended n (by simp)]

/-- The run from `s` completes `m` steps, which lead to `t`, and ends there with status `ending`, traced or not. -/
def RunEnds (budget : Nat) (s : State) (m : Nat) (t : State) (ending : Status) : Prop :=
  Sys2Proof.core.run m s = .next t ∧
    ∀ trace, runToEnd trace budget ⟨s, []⟩ = .ok ⟨{ t with status := ending }, received trace budget m s⟩

section
variable (hr : s.status = .running) (hb : s.stepsDone ≤ budget)
include hr hb

theorem runEnds_of_budget (h : Sys2Proof.core.run (budget - s.stepsDone) s = .next t) :
    RunEnds budget s (budget - s.stepsDone) t .budgetReached := by
  obtain ⟨hrt, hcount⟩ := coreRun_next_counts hr h
  refine ⟨h, fun trace => ?_⟩
  rw [runToEnd, runFor_add 1 [] hr (by omega) h]
  exact runFor_of_budget 0 hrt (by omega)

theorem runEnds_of_fault {f : Fault} (hm : m < budget - s.stepsDone) (h : Sys2Proof.core.run m s = .next t)
    (hf : step t = .fault f) : RunEnds budget s m t (.fatal f) := by
  obtain ⟨hrt, hcount⟩ := coreRun_next_counts hr h
  refine ⟨h, fun trace => ?_⟩
  have hmoves : budget - s.stepsDone + 1 = m + (budget - s.stepsDone - m + 1) := by omega
  rw [runToEnd, hmoves, runFor_add _ [] hr (by omega) h]
  exact runFor_of_fault _ hrt (by omega) hf

/-- Every run ends in one of two ways. -/
theorem runEnds_cases (hc : NoRefusals s.config) :
    (∃ t, RunEnds budget s (budget - s.stepsDone) t .budgetReached) ∨
      ∃ m t f, m < budget - s.stepsDone ∧ step t = .fault f ∧ RunEnds budget s m t (.fatal f) := by
  obtain ⟨t, ht⟩ | ⟨m, t, f, hm, ht, hf⟩ := coreRun_completes_or_halts (budget - s.stepsDone) hc hr
  · exact .inl ⟨t, runEnds_of_budget hr hb ht⟩
  · exact .inr ⟨m, t, f, hm, hf, runEnds_of_fault hr hb hm ht hf⟩

end

/-- What a run with TRACE on and one with TRACE off have in common, and the lines of the first. -/
theorem RunEnds.traced {ending : Status} (hr : s.status = .running) (hb : s.stepsDone + m ≤ budget)
    (h : RunEnds budget s m t ending) :
    ∃ u v, runToEnd .on budget ⟨s, []⟩ = .ok u ∧ runToEnd .off budget ⟨s, []⟩ = .ok v ∧
      v.state = u.state ∧ v.lines = [] ∧ u.state.stepsDone = s.stepsDone + u.lines.length ∧
      ∀ (k : Nat) (line : TraceLine), u.lines[k]? = some line →
        ∃ t : State, Sys2Proof.core.run k s = .next t ∧ traceLine t = some line := by
  obtain ⟨hrun, hend⟩ := h
  obtain ⟨hlength, hlines⟩ := received_on hb hrun
  refine ⟨_, _, hend .on, hend .off, rfl, received_off hrun, ?_, hlines⟩
  rw [hlength]
  exact (coreRun_next_counts hr hrun).2

/-! ## The statements of 70_reset_and_hazards.md -/

/-- Settles O43: loading one more segment is one more write to memory, at addresses that do not wrap. -/
theorem launchLoadsTheImage : Obligations.LaunchLoadsTheImage := by
  refine fun c image start entry bytes => ⟨rfl, ?succeeds, fun s t hs ht => ?state⟩
  case succeeds =>
    rw [launch_isSome_iff, launch_isSome_iff, ← segmentFits_iff, List.all_append, Bool.and_eq_true, and_comm]
    simp
  case state =>
    obtain ⟨-, rfl⟩ := launch_eq_some_iff.1 hs
    obtain ⟨hall, rfl⟩ := launch_eq_some_iff.1 ht
    have hfit : start.toNat + bytes.length ≤ 2 ^ 32 := by
      simp only [List.all_append, Bool.and_eq_true] at hall
      simpa [segmentFits_iff] using hall.2
    have hreset := loadImage_eq (State.resetWith c entry) (image ++ [(start, bytes)])
    refine ⟨fun r => ?regs, ?_, ?_, ?_, ?_, ?_, ?_, fun k b hb => ?inside, ?outside⟩
    case regs =>
      rw [hreset]
      exact State.readReg_resetWith c entry r
    case inside =>
      rw [loadImage_append_singleton]
      exact readByte_loadSegment_inside hfit _ hb
    case outside =>
      rw [loadImage_append_singleton]
      exact loadSegment_sameMemoryOutside hfit _
    all_goals
      rw [hreset]
      rfl

/-- Settles O44: the two ends of a run, whatever TRACE is. -/
theorem everyRunEndsAtItsBudgetOrAFatalHalt : Obligations.EveryRunEndsAtItsBudgetOrAFatalHalt := by
  intro s trace budget hc hr hb
  obtain ⟨t, hrun, hend⟩ | ⟨m, t, f, hm, hf, hrun, hend⟩ := runEnds_cases hr hb hc
  · obtain ⟨-, hcount⟩ := coreRun_next_counts hr hrun
    exact ⟨_, hend trace, .inl ⟨t, hrun, by omega, rfl⟩⟩
  · obtain ⟨-, hcount⟩ := coreRun_next_counts hr hrun
    exact ⟨_, hend trace, .inr ⟨m, t, f, hm, hrun, hcount, hf, rfl⟩⟩

/-- Settles O46: at either end the lines are those of the completed steps. -/
theorem tracedRunsEmitOneLinePerCompletedStep : Obligations.TracedRunsEmitOneLinePerCompletedStep := by
  intro s budget hc hr hb
  obtain ⟨t, hend⟩ | ⟨m, t, f, hm, -, hend⟩ := runEnds_cases hr hb hc
  · exact hend.traced hr (by omega)
  · exact hend.traced hr (by omega)

end Sys2Proof.Machine
end

section
/-! SUPPORT. The canonical form of the memory lists (log 16): the first listed address is where the reads first differ
from the default byte, so the reads determine the list. -/

namespace Sys2Proof.Machine

variable {d v : Byte} {k lo a : Nat} {m n : Memory}

theorem Memory.wfFrom_cons :
    Memory.wfFrom d lo ((k, v) :: m) = true ↔ lo ≤ k ∧ k < 2 ^ 32 ∧ v ≠ d ∧ Memory.wfFrom d (k + 1) m = true := by
  simp [Memory.wfFrom, and_assoc]

@[simp] theorem Memory.get_cons_self : Memory.get d ((k, v) :: m) k = v := if_pos rfl

theorem Memory.get_cons_of_ne (h : a ≠ k) : Memory.get d ((k, v) :: m) a = Memory.get d m a := if_neg h

/-- No address below the first listed one holds anything but the default. -/
theorem Memory.head_le_of_get_ne (h : Memory.wfFrom d lo ((k, v) :: m) = true)
    (ha : Memory.get d ((k, v) :: m) a ≠ d) : k ≤ a := by
  by_contra! hlt
  obtain ⟨-, -, -, htail⟩ := Memory.wfFrom_cons.1 h
  rw [Memory.get_cons_of_ne hlt.ne] at ha
  exact ha (Memory.get_of_lt htail (by omega))

/-- The tail of a canonical list reads as the list does, but for the default at the head's address. -/
theorem Memory.get_tail (h : Memory.wfFrom d lo ((k, v) :: m) = true) (a : Nat) :
    Memory.get d m a = if a = k then d else Memory.get d ((k, v) :: m) a := by
  obtain ⟨-, -, -, htail⟩ := Memory.wfFrom_cons.1 h
  split
  case isTrue ha => exact Memory.get_of_lt htail (by omega)
  case isFalse ha => rw [Memory.get_cons_of_ne ha]

/-- By induction on the lists: the reads settle the first address and its byte, and then the reads of the tails. -/
theorem Memory.eq_of_get_eq (hm : Memory.wfFrom d lo m = true) (hn : Memory.wfFrom d lo n = true)
    (h : ∀ a < 2 ^ 32, Memory.get d m a = Memory.get d n a) : m = n := by
  induction m generalizing lo n with
  | nil =>
    cases n with
    | nil => rfl
    | cons cell n =>
      obtain ⟨k, v⟩ := cell
      obtain ⟨-, hk, hv, -⟩ := Memory.wfFrom_cons.1 hn
      exact absurd ((h k hk).trans Memory.get_cons_self).symm hv
  | cons cell m ih =>
    obtain ⟨k, v⟩ := cell
    obtain ⟨hlo, hk, hv, hm'⟩ := Memory.wfFrom_cons.1 hm
    cases n with
    | nil => exact absurd (Memory.get_cons_self.symm.trans (h k hk)) hv
    | cons cell n =>
      obtain ⟨j, w⟩ := cell
      obtain ⟨-, hj, hw, hn'⟩ := Memory.wfFrom_cons.1 hn
      have hjk : j ≤ k := Memory.head_le_of_get_ne hn (by rwa [← h k hk, Memory.get_cons_self])
      have hkj : k ≤ j := Memory.head_le_of_get_ne hm (by rwa [h j hj, Memory.get_cons_self])
      obtain rfl : j = k := le_antisymm hjk hkj
      obtain rfl : v = w := by simpa using h j hj
      have htail : m = n := ih hm' hn' fun a ha => by rw [Memory.get_tail hm, Memory.get_tail hn, h a ha]
      rw [htail]

/-- Settles O40: every address below 2^32 is that of a word. -/
theorem canonicalMemoriesWithEqualReadsAreEqual : Obligations.CanonicalMemoriesWithEqualReadsAreEqual :=
  fun _ _ _ hm hn h => Memory.eq_of_get_eq hm hn fun a ha => h (BitVec.ofNatLT a ha)

end Sys2Proof.Machine
end
